-- ==== Sys2Proof/Word.lean ====
section
/-! DEFINITION. The word types of the block, each named after what the spec calls it (00_scope.md R6). -/

namespace Sys2Proof

/-- One byte of a value or of a command word carried as bytes (20_memory.md R42). -/
abbrev Byte := BitVec 8

/-- `W_HEAD` = 64: the most significant word of a value (00_scope.md R6). -/
abbrev Head := BitVec 64

/-- `W_TAIL` = 32: the least significant word of a value (00_scope.md R6). -/
abbrev Tail := BitVec 32

/-- `W` = 96: the logical value `head ++ tail` (10_state.md R22). -/
abbrev Value := BitVec 96

/-- `W_PCNT` = 7: a cached population count, 0..96 (10_state.md R20). -/
abbrev Count := BitVec 7

/-- `W_CMD` = 128: a command word (30_encoding.md R50). -/
abbrev CmdWord := BitVec 128

/-- `W_CHAR` = 8: a character code (40_construction.md R76). -/
abbrev CharCode := BitVec 8

end Sys2Proof
end

