-- ==== Sys2Proof/Syntax.lean ====
section
/-! DEFINITION. The commands of the block: one constructor per row of spec/opcode_table.json (30_encoding.md R59). -/

namespace Sys2Proof

/-- The index d of a bitstring register X[d], d in 0, 1 (10_state.md R20). -/
inductive Reg where
  | x0
  | x1
  deriving DecidableEq, Repr

/-- The formats of a command word (30_encoding.md R52). -/
inductive Format where
  | r
  | s
  | w
  | z
  | c
  deriving DecidableEq, Repr

/-- A command. Register operands other than `d` are implicit in the command (30_encoding.md R61). The shift amount is the
natural number the spec's rules shift by (00_scope.md R8); that it fits its field is WellFormed's check (log 12). -/
inductive Instr where
  | and
  | or
  | xor
  | not
  | shl (n : Nat)
  | shr (n : Nat)
  | popcnt
  | lt
  | gt
  | le
  | ge
  | eq
  | ne
  | incl
  | beq
  | ldw (d : Reg) (head : Head) (tail : Tail)
  | ldpz (d : Reg)
  | ldpc (d : Reg) (ch : CharCode)
  deriving DecidableEq, Repr

end Sys2Proof
end

