-- ==== Sys2Proof/WellFormed.lean ====
section
/-! DEFINITION. Which commands have a command word: those whose shift amount fits IMM32 (30_encoding.md R54). Every other
operand has exactly its field's width by its type. -/

namespace Sys2Proof

/-- The shift amounts a command word can carry: 0..4294967295 (30_encoding.md R54). -/
def shiftAmountFits (n : Nat) : Bool := decide (n < 2 ^ 32)

/-- A command that has a command word. -/
def Instr.wf : Instr → Bool
  | .and => true
  | .or => true
  | .xor => true
  | .not => true
  | .shl n => shiftAmountFits n
  | .shr n => shiftAmountFits n
  | .popcnt => true
  | .lt => true
  | .gt => true
  | .le => true
  | .ge => true
  | .eq => true
  | .ne => true
  | .incl => true
  | .beq => true
  | .ldw _ _ _ => true
  | .ldpz _ => true
  | .ldpc _ _ => true

end Sys2Proof
end

