-- ==== Sys2Proof/Decode.lean ====
section
/-! DEFINITION. The decoder (30_encoding.md R58 to R61), total on any word and on any bytes, and after it the encoder
(30_encoding.md R51 to R57). -/

namespace Sys2Proof

/-- Why a command word is BAD (30_encoding.md R60). -/
inductive BadReason where
  /-- OP is 0x00 or 0x13..0x1F. -/
  | reservedOpcode
  /-- OP is in the opcode map, and a bit outside the live fields of its format is not 0. -/
  | nonzeroDeadField
  deriving DecidableEq, Repr

/-- What decode answers on a command word (30_encoding.md R58). -/
inductive DecodeResult where
  | command (i : Instr)
  | bad (reason : BadReason)
  deriving DecidableEq, Repr

/-- What decode answers on bytes: a partial word never reaches the decoder (20_memory.md R43). -/
inductive BytesResult where
  | word (r : DecodeResult)
  | partialWord (length : Nat)
  deriving DecidableEq, Repr

/-! ## Fields of a command word (30_encoding.md R51) -/

/-- OP, bits [4:0]. -/
def fieldOp (w : CmdWord) : BitVec 5 := w.extractLsb' 0 5

/-- D, bit [5]. -/
def fieldD (w : CmdWord) : BitVec 1 := w.extractLsb' 5 1

/-- CH, bits [15:8]. -/
def fieldCh (w : CmdWord) : CharCode := w.extractLsb' 8 8

/-- IMM32, bits [63:32]. -/
def fieldImm32 (w : CmdWord) : Tail := w.extractLsb' 32 32

/-- IMM64, bits [127:64]. -/
def fieldImm64 (w : CmdWord) : Head := w.extractLsb' 64 64

/-- The register a D field names. -/
def regOfBit (b : BitVec 1) : Reg := if b = 1#1 then .x1 else .x0

/-- The D field that names a register. -/
def bitOfReg : Reg → BitVec 1
  | .x0 => 0#1
  | .x1 => 1#1

/-- The bits of OP. -/
def maskOp : CmdWord := 0x1f#128

/-- The bit of D. -/
def maskD : CmdWord := 0x20#128

/-- The bits of CH. -/
def maskCh : CmdWord := 0xff00#128

/-- The bits of IMM32. -/
def maskImm32 : CmdWord := 0xffffffff00000000#128

/-- The bits of IMM64. -/
def maskImm64 : CmdWord := 0xffffffffffffffff0000000000000000#128

/-- OP and the live fields of each format (30_encoding.md R52, R58). -/
def liveMask : Format → CmdWord
  | .r => maskOp
  | .s => maskOp ||| maskImm32
  | .w => maskOp ||| maskD ||| maskImm32 ||| maskImm64
  | .z => maskOp ||| maskD
  | .c => maskOp ||| maskD ||| maskCh

/-- The format of each command (30_encoding.md R52, R59). -/
def Instr.format : Instr → Format
  | .and => .r
  | .or => .r
  | .xor => .r
  | .not => .r
  | .shl _ => .s
  | .shr _ => .s
  | .popcnt => .r
  | .lt => .r
  | .gt => .r
  | .le => .r
  | .ge => .r
  | .eq => .r
  | .ne => .r
  | .incl => .r
  | .beq => .r
  | .ldw _ _ _ => .w
  | .ldpz _ => .z
  | .ldpc _ _ => .c

/-! ## Decode -/

/-- The command that OP selects (the opcode map, 30_encoding.md R59), its operands taken from the fields of its format
(30_encoding.md R61); `none` for a reserved OP. -/
def commandOf (op : BitVec 5) (d : BitVec 1) (ch : CharCode) (imm32 : Tail) (imm64 : Head) : Option Instr :=
  match op.toNat with
  | 0x01 => some .and
  | 0x02 => some .or
  | 0x03 => some .xor
  | 0x04 => some .not
  | 0x05 => some (.shl imm32.toNat)
  | 0x06 => some (.shr imm32.toNat)
  | 0x07 => some .popcnt
  | 0x08 => some .lt
  | 0x09 => some .gt
  | 0x0A => some .le
  | 0x0B => some .ge
  | 0x0C => some .eq
  | 0x0D => some .ne
  | 0x0E => some .incl
  | 0x0F => some .beq
  | 0x10 => some (.ldw (regOfBit d) imm64 imm32)
  | 0x11 => some (.ldpz (regOfBit d))
  | 0x12 => some (.ldpc (regOfBit d) ch)
  | _ => none

/-- The command that a word's fields select, before the live-field check of decode. -/
def selectCommand (w : CmdWord) : Option Instr :=
  commandOf (fieldOp w) (fieldD w) (fieldCh w) (fieldImm32 w) (fieldImm64 w)

/-- The total decoder of 30_encoding.md R58: a reserved OP, or a nonzero bit outside the live fields, is BAD. -/
def decode (w : CmdWord) : DecodeResult :=
  match selectCommand w with
  | none => .bad .reservedOpcode
  | some i => if w &&& ~~~ liveMask i.format = 0#128 then .command i else .bad .nonzeroDeadField

/-! ## Bytes (20_memory.md R42, R43) -/

/-- The 16 bytes of a command word: byte k is `w[8k+7:8k]` (20_memory.md R42). -/
def bytesOfWord (w : CmdWord) : List Byte := (List.range 16).map fun k => w.extractLsb' (8 * k) 8

/-- The number whose little-endian bytes are given, within 128 bits. -/
def wordOfBytesLE : List Byte → CmdWord
  | [] => 0#128
  | b :: rest => (wordOfBytesLE rest <<< 8) ||| b.setWidth 128

/-- The command word that 16 bytes carry; any other number of bytes is no whole word (20_memory.md R43). -/
def wordOfBytes (bs : List Byte) : Option CmdWord :=
  if bs.length = 16 then some (wordOfBytesLE bs) else none

/-- Decode on any bytes: a partial word never reaches the decoder (20_memory.md R43). -/
def decodeBytes (bs : List Byte) : BytesResult :=
  match wordOfBytes bs with
  | some w => .word (decode w)
  | none => .partialWord bs.length

/-! ## Encode (30_encoding.md R51 to R57) -/

/-- A command word from its fields, RSV_A and RSV_B being 0 (30_encoding.md R51). -/
def packWord (op : BitVec 5) (d : BitVec 1) (ch : CharCode) (imm32 : Tail) (imm64 : Head) : CmdWord :=
  imm64 ++ imm32 ++ 0#16 ++ ch ++ 0#2 ++ d ++ op

/-- Format R: the word is fully fixed by its opcode (30_encoding.md R53). -/
def packR (op : BitVec 5) : CmdWord := packWord op 0#1 0#8 0#32 0#64

/-- Format S: OP and the shift amount in IMM32 (30_encoding.md R54). -/
def packS (op : BitVec 5) (n : Nat) : CmdWord := packWord op 0#1 0#8 (BitVec.ofNat 32 n) 0#64

/-- Format W: OP, D, the tail in IMM32 and the head in IMM64 (30_encoding.md R55). -/
def packW (op : BitVec 5) (d : Reg) (head : Head) (tail : Tail) : CmdWord := packWord op (bitOfReg d) 0#8 tail head

/-- Format Z: OP and D (30_encoding.md R56). -/
def packZ (op : BitVec 5) (d : Reg) : CmdWord := packWord op (bitOfReg d) 0#8 0#32 0#64

/-- Format C: OP, D and CH (30_encoding.md R57). -/
def packC (op : BitVec 5) (d : Reg) (ch : CharCode) : CmdWord := packWord op (bitOfReg d) ch 0#32 0#64

/-- The opcode of each command (30_encoding.md R59). -/
def Instr.opcode : Instr → BitVec 5
  | .and => 0x01#5
  | .or => 0x02#5
  | .xor => 0x03#5
  | .not => 0x04#5
  | .shl _ => 0x05#5
  | .shr _ => 0x06#5
  | .popcnt => 0x07#5
  | .lt => 0x08#5
  | .gt => 0x09#5
  | .le => 0x0A#5
  | .ge => 0x0B#5
  | .eq => 0x0C#5
  | .ne => 0x0D#5
  | .incl => 0x0E#5
  | .beq => 0x0F#5
  | .ldw _ _ _ => 0x10#5
  | .ldpz _ => 0x11#5
  | .ldpc _ _ => 0x12#5

/-- The command word of a command (30_encoding.md R53 to R57). -/
def encode (i : Instr) : CmdWord :=
  match i with
  | .and => packR i.opcode
  | .or => packR i.opcode
  | .xor => packR i.opcode
  | .not => packR i.opcode
  | .shl n => packS i.opcode n
  | .shr n => packS i.opcode n
  | .popcnt => packR i.opcode
  | .lt => packR i.opcode
  | .gt => packR i.opcode
  | .le => packR i.opcode
  | .ge => packR i.opcode
  | .eq => packR i.opcode
  | .ne => packR i.opcode
  | .incl => packR i.opcode
  | .beq => packR i.opcode
  | .ldw d head tail => packW i.opcode d head tail
  | .ldpz d => packZ i.opcode d
  | .ldpc d ch => packC i.opcode d ch

/-! ## The opcode table's words -/

/-- The command word whose low `nbits` bits are those of `w`, all others 0. -/
def tableWord (nbits w : Nat) : CmdWord := BitVec.ofNat 128 (w % 2 ^ min nbits 128)

/-- The command that the decoder reads from a word numbered as spec/opcode_table.json numbers it, laid out as bytes in the
order of 20_memory.md R42. -/
def decodeTableWord (nbits w : Nat) : Option Instr :=
  match decodeBytes (bytesOfWord (tableWord nbits w)) with
  | .word (.command i) => some i
  | .word (.bad _) => none
  | .partialWord _ => none

end Sys2Proof
end

