-- ==== Sys2Proof/Config.lean ====
section
/-! DEFINITION. What an implementation fixes (00_scope.md R6) and the free values of the model. -/

namespace Sys2Proof.Config

/-- `ONE_CHAR`, the code of the character `1` (00_scope.md R6, 40_construction.md R76).
PRESUMED (log 14): the spec marks 0x31 as general knowledge, not in its source. -/
def oneChar : CharCode := 0x31#8

/-- `LATENCY`, the OPEN parameter (00_scope.md R6, 70_reset_and_hazards.md R158): the time a command word takes, finite,
and as the implementation chooses for each. The model is untimed: no definition uses it (log 9). Safe. -/
opaque latency : CmdWord → Nat

/-- FREE VALUE (70_reset_and_hazards.md R157): whether the n-th read-port read made while a command is executing returns
the whole state after the command (true) or the whole state before it (false). Nothing constrains it (log 7). Safe. -/
opaque midReadSeesNew : Nat → Bool

end Sys2Proof.Config
end

