-- ==== Sys2Proof/Machine/State.lean ====
section
/-! DEFINITION. The state of the block (10_state.md), as plain data, with the outside world's inputs and observations beside
it, and the state after reset (10_state.md R34). -/

namespace Sys2Proof.Machine

/-- The content of one bitstring register: a FixedBitString96 value (10_state.md R20). -/
structure BitString where
  /-- The most significant 64 bits. -/
  head : Head
  /-- The least significant 32 bits. -/
  tail : Tail
  /-- The cached number of set bits of head and tail. -/
  pcnt : Count
  deriving DecidableEq, Repr

/-- STATUS.RKIND: the kind of the last command's result (10_state.md R27). Code 7 is never produced and has no name
(log 11). -/
inductive RKind where
  /-- No command since reset. -/
  | none
  /-- X[0] written by AND, OR, XOR, NOT, SHL or SHR. -/
  | bits
  /-- FLAG written. -/
  | bool
  /-- CNT written. -/
  | count
  /-- X[d] written by LDW, LDPZ or LDPC. -/
  | loaded
  /-- Command word rejected by decode. -/
  | bad
  /-- Command aborted by UNINIT. -/
  | fault
  deriving DecidableEq, Repr

/-- STATUS.FCAUSE: the cause of the first UNINIT since reset (10_state.md R27, 60_exceptions.md R131). Code 3 is never
produced and has no name (log 11). -/
inductive FCause where
  | none
  /-- UNINIT(0). -/
  | uninit0
  /-- UNINIT(1). -/
  | uninit1
  deriving DecidableEq, Repr

/-- The read ports (10_state.md R33): RD_X0, RD_X1 and RD_STATUS. -/
inductive ReadPort where
  | x (d : Reg)
  | status
  deriving DecidableEq, Repr

/-- What a read port answers (10_state.md R33): a value and its count, no value while the register is unloaded (log 5), or
the STATUS word. -/
inductive PortValue where
  | x (d : Reg) (answer : Option (Value × Count))
  | status (word : BitVec 32)
  deriving DecidableEq, Repr

/-- What the host can do to the block (60_exceptions.md R138: the command port, the read ports' strobes and reset), each
one step of the model (log 2). -/
inductive HostInput where
  /-- Issue a command word (30_encoding.md R50). -/
  | command (w : CmdWord)
  /-- Issue a command word carried as bytes, the lowest first (20_memory.md R42). -/
  | commandBytes (bs : List Byte)
  /-- Issue a command word, and strobe these read ports while it is executing (70_reset_and_hazards.md R157). -/
  | commandWithReads (w : CmdWord) (ports : List ReadPort)
  /-- Strobe a read port between commands (10_state.md R33). -/
  | read (port : ReadPort)
  /-- Apply reset between commands (70_reset_and_hazards.md R150). -/
  | reset
  /-- Issue a command word, and apply reset while it is executing (70_reset_and_hazards.md R152). -/
  | resetDuring (w : CmdWord)
  deriving DecidableEq, Repr

/-- Why the machine stops with a fault: NEVER. No outcome stops the block (60_exceptions.md R130); BAD (R132) and UNINIT
(R134) are recorded in STATUS and the block goes on, so this type has no constructor (log 4). -/
inductive Fault where
  deriving DecidableEq, Repr

/-- Why a step has no meaning. -/
inductive Refusal where
  /-- Raised by exec for a command that has no meaning yet. Safe: the run stops. (No arm of exec raises it.) -/
  | notModelled (mnemonic : String)
  /-- Raised by step on a command handed over as bytes that are not the 16 bytes of a whole word: a partial word never
  reaches the decoder (20_memory.md R43, 93_implementation_defined.md U14; log 10). Safe: the run stops. -/
  | partialWord (length : Nat)
  deriving DecidableEq, Repr

/-- The state of the block, fields named as the spec names them, and below them the model's own fields. -/
structure State where
  /-- X[0], the accumulator (10_state.md R20). -/
  x0 : BitString
  /-- X[1], the operand register (10_state.md R20). -/
  x1 : BitString
  /-- V[0] (10_state.md R25); STATUS.V0 is a copy of it (R27). -/
  v0 : Bool
  /-- V[1] (10_state.md R25); STATUS.V1 is a copy of it (R27). -/
  v1 : Bool
  /-- STATUS.RKIND (10_state.md R27). -/
  rkind : RKind
  /-- STATUS.FLAG (10_state.md R27, R29). -/
  flag : Bool
  /-- STATUS.CNT (10_state.md R27). -/
  cnt : Count
  /-- STATUS.FAULT, sticky (10_state.md R27). -/
  fault : Bool
  /-- STATUS.FCAUSE (10_state.md R27). -/
  fcause : FCause
  /-- The model's own: what the host will do, the next input first (log 2). -/
  input : List HostInput
  /-- The model's own: what the read ports have answered, the newest first (log 6). -/
  observed : List PortValue
  /-- The model's own: how many reads were made during a command, from which the free value is drawn (log 7). -/
  midReads : Nat
  deriving DecidableEq, Repr

/-- The content the model gives a bitstring register at reset. DESIGN CHOICE (log 1): the spec gives none, V[d] = 0, and no
command and no read port reads it before a load. -/
def BitString.atReset : BitString := { head := 0#64, tail := 0#32, pcnt := 0#7 }

/-- The machine right after reset (10_state.md R34), with no input waiting. -/
def State.reset : State :=
  { x0 := BitString.atReset
    x1 := BitString.atReset
    v0 := false
    v1 := false
    rkind := .none
    flag := false
    cnt := 0#7
    fault := false
    fcause := .none
    input := []
    observed := []
    midReads := 0 }

end Sys2Proof.Machine
end

