-- ==== Sys2Proof/Machine/Ops.lean ====
section
/-! DEFINITION. The named operations over the registers and STATUS that every command's rule is written with
(00_scope.md R8, R9), and raising UNINIT (60_exceptions.md R134): the whole of taking an exception on this block, which has
no trap entry and no return from one (60_exceptions.md R135, R136). -/

namespace Sys2Proof.Machine

open Host

/-- What a step of this machine answers. -/
abbrev Result := Outcome State Fault Refusal

/-! ## Pseudocode operators (00_scope.md R8) -/

/-- The number of set bits among the lowest `k` bits of `v`. -/
def popcountBelow {n : Nat} (v : BitVec n) : Nat → Nat
  | 0 => 0
  | k + 1 => popcountBelow v k + (v.getLsbD k).toNat

/-- `popcount_n(v)` (00_scope.md R8): the sum of the bits of `v`. -/
def popcount {n : Nat} (v : BitVec n) : Nat := popcountBelow v n

/-- `shl_n(v, k)` = (v * 2^k) mod 2^n, for every k; the guard only keeps a large k from being computed with (log 13). -/
def shlN {n : Nat} (v : BitVec n) (k : Nat) : BitVec n := if n ≤ k then 0#n else v <<< k

/-- `shr_n(v, k)` = floor(v / 2^k), for every k; the guard only keeps a large k from being computed with (log 13). -/
def shrN {n : Nat} (v : BitVec n) (k : Nat) : BitVec n := if n ≤ k then 0#n else v >>> k

/-! ## Values (00_scope.md R9, 10_state.md R22) -/

/-- `val(x)` = head ++ tail, the 96-bit logical value (10_state.md R22). -/
def BitString.val (x : BitString) : Value := x.head ++ x.tail

/-- The count the population-count reduction tree computes for the words being written (43_popcount.md R101). It is at most
96, so 7 bits hold it. -/
def countWords (h : Head) (t : Tail) : Count := BitVec.ofNat 7 (popcount h + popcount t)

/-- `mk(h, t)` as a register content, which is `fromWords(h, t)` (00_scope.md R9, 40_construction.md R70). -/
def mk (h : Head) (t : Tail) : BitString := { head := h, tail := t, pcnt := countWords h t }

/-- `mk96(v)` = mk(v[95:32], v[31:0]) (00_scope.md R9). -/
def mk96 (v : Value) : BitString := mk (v.extractLsb' 32 64) (v.extractLsb' 0 32)

/-! ## Registers (10_state.md R20 to R26) -/

/-- `X[d]` (00_scope.md R9). -/
def State.x (s : State) : Reg → BitString
  | .x0 => s.x0
  | .x1 => s.x1

/-- `V[d]` (10_state.md R25). -/
def State.v (s : State) : Reg → Bool
  | .x0 => s.v0
  | .x1 => s.v1

/-- `X[d] <- b` for a register content made by mk: the content is written whole and V[d] is set in the same step
(10_state.md R23). The only write of a bitstring register. -/
def State.writeX (s : State) (d : Reg) (b : BitString) : State :=
  match d with
  | .x0 => { s with x0 := b, v0 := true }
  | .x1 => { s with x1 := b, v1 := true }

/-! ## Results (10_state.md R27) -/

/-- `RKIND <- k`. -/
def State.setRKind (s : State) (k : RKind) : State := { s with rkind := k }

/-- The end of AND, OR, XOR, NOT, SHL and SHR: X[0] is written and RKIND is BITS. -/
def State.putBits (s : State) (b : BitString) : State := (s.writeX .x0 b).setRKind .bits

/-- The end of LDW, LDPZ and LDPC: X[d] is written and RKIND is LOADED. -/
def State.putLoaded (s : State) (d : Reg) (b : BitString) : State := (s.writeX d b).setRKind .loaded

/-- The end of a predicate: FLAG is written and RKIND is BOOL. -/
def State.putFlag (s : State) (b : Bool) : State := { s with flag := b, rkind := .bool }

/-- The end of POPCNT: CNT is written and RKIND is COUNT. -/
def State.putCount (s : State) (c : Count) : State := { s with cnt := c, rkind := .count }

/-! ## Outcomes that are no result (60_exceptions.md R132, R134) -/

/-- Executing a BAD word: RKIND <- BAD and nothing else (60_exceptions.md R132). -/
def State.rejectBad (s : State) : State := s.setRKind .bad

/-- The FCAUSE code of UNINIT(d) (60_exceptions.md R131). -/
def causeOf : Reg → FCause
  | .x0 => .uninit0
  | .x1 => .uninit1

/-- `raise UNINIT(d)` (60_exceptions.md R134): taking the block's one exception. FCAUSE keeps the first cause, FAULT is set
and sticks, RKIND is FAULT, nothing else is written, and the block goes on (R136). -/
def State.raiseUninit (s : State) (d : Reg) : State :=
  { s with fcause := if s.fault then s.fcause else causeOf d, fault := true, rkind := .fault }

/-! ## Reset (70_reset_and_hazards.md R150) -/

/-- Reset applied to the block: every piece of its state takes its reset value (10_state.md R34). The outside world's own
fields stay (log 8). -/
def State.applyReset (s : State) : State :=
  { State.reset with input := s.input, observed := s.observed, midReads := s.midReads }

end Sys2Proof.Machine
end

