-- ==== Sys2Proof/Machine/Operands.lean ====
section
/-! DEFINITION. The operand forms of the commands: which registers a command requires to be loaded, and in which order
(10_state.md R26, 60_exceptions.md R137), and the bit a character code stands for (40_construction.md R76). -/

namespace Sys2Proof.Machine

open Host

/-- The first register of a list that is not loaded. -/
def State.firstUnloaded (s : State) : List Reg → Option Reg
  | [] => none
  | d :: rest => if s.v d then s.firstUnloaded rest else some d

/-- `require(d)` for each register of a list in order, then the command's writes (00_scope.md R9, R10): the first unloaded
register raises UNINIT and ends the command with no other write. -/
def requireThen (ds : List Reg) (s done : State) : Result :=
  match s.firstUnloaded ds with
  | some d => .next (s.raiseUninit d)
  | none => .next done

/-- The registers of a unary command: X[1] is neither read nor checked (41_bitwise.md R83, 42_shift.md R90). -/
def accumulatorOnly : List Reg := [.x0]

/-- The registers of a two-operand command, in the order they are required (60_exceptions.md R137). -/
def bothRegisters : List Reg := [.x0, .x1]

/-- The bit a character code stands for: 1 exactly when it is `ONE_CHAR` (40_construction.md R76). -/
def isOneChar (ch : CharCode) : Bool := decide (ch = Config.oneChar)

/-- The value after one pattern character is shifted in: `shl_96(v, 1) | zext_96(b)` (40_construction.md R74). -/
def shiftInChar (v : Value) (ch : CharCode) : Value := shlN v 1 ||| (BitVec.ofBool (isOneChar ch)).setWidth 96

/-- The registers each command reads, as 10_state.md R26 lists them. -/
def readsOf : Instr → List Reg
  | .and => bothRegisters
  | .or => bothRegisters
  | .xor => bothRegisters
  | .not => accumulatorOnly
  | .shl _ => accumulatorOnly
  | .shr _ => accumulatorOnly
  | .popcnt => accumulatorOnly
  | .lt => bothRegisters
  | .gt => bothRegisters
  | .le => bothRegisters
  | .ge => bothRegisters
  | .eq => bothRegisters
  | .ne => bothRegisters
  | .incl => bothRegisters
  | .beq => bothRegisters
  | .ldw _ _ _ => []
  | .ldpz _ => []
  | .ldpc d _ => [d]

/-- The bitstring register each command writes, as 10_state.md R26 lists them. -/
def writesOf : Instr → Option Reg
  | .and => some .x0
  | .or => some .x0
  | .xor => some .x0
  | .not => some .x0
  | .shl _ => some .x0
  | .shr _ => some .x0
  | .popcnt => none
  | .lt => none
  | .gt => none
  | .le => none
  | .ge => none
  | .eq => none
  | .ne => none
  | .incl => none
  | .beq => none
  | .ldw d _ _ => some d
  | .ldpz d => some d
  | .ldpc d _ => some d

end Sys2Proof.Machine
end

