-- ==== Sys2Proof/Machine/Bitwise.lean ====
section
/-! DEFINITION. The bitwise ALU: AND, OR, XOR and NOT, each on the head lane and the tail lane apart (41_bitwise.md). -/

namespace Sys2Proof.Machine

/-- AND (41_bitwise.md R80). -/
def execAnd (s : State) : Result :=
  requireThen bothRegisters s (s.putBits (mk (s.x0.head &&& s.x1.head) (s.x0.tail &&& s.x1.tail)))

/-- OR (41_bitwise.md R81). -/
def execOr (s : State) : Result :=
  requireThen bothRegisters s (s.putBits (mk (s.x0.head ||| s.x1.head) (s.x0.tail ||| s.x1.tail)))

/-- XOR (41_bitwise.md R82). -/
def execXor (s : State) : Result :=
  requireThen bothRegisters s (s.putBits (mk (s.x0.head ^^^ s.x1.head) (s.x0.tail ^^^ s.x1.tail)))

/-- NOT (41_bitwise.md R83): word-width complements; X[1] is neither read nor checked. -/
def execNot (s : State) : Result :=
  requireThen accumulatorOnly s (s.putBits (mk (~~~s.x0.head) (~~~s.x0.tail)))

end Sys2Proof.Machine
end

