-- ==== Sys2Proof/Machine/Construction.lean ====
section
/-! DEFINITION. The register loads LDW, LDPZ and LDPC, and the constructor `fromBitPattern` they compute
(40_construction.md). `fromWords` is `mk` (40_construction.md R70). -/

namespace Sys2Proof.Machine

/-- `fromBitPattern(text)` (40_construction.md R71), the text being its characters' codes: read right to left, the last
character is bit 0, positions beyond bit 95 are dropped, and positions beyond the text are 0. -/
def fromBitPattern (text : List CharCode) : BitString :=
  mk96 ((BitVec.ofBoolListLE (text.reverse.map isOneChar)).setWidth 96)

/-- LDW d, HEAD, TAIL (40_construction.md R72). -/
def execLdw (d : Reg) (head : Head) (tail : Tail) (s : State) : Result :=
  requireThen [] s (s.putLoaded d (mk head tail))

/-- LDPZ d (40_construction.md R73). -/
def execLdpz (d : Reg) (s : State) : Result :=
  requireThen [] s (s.putLoaded d (mk 0#64 0#32))

/-- LDPC d, CH (40_construction.md R74). -/
def execLdpc (d : Reg) (ch : CharCode) (s : State) : Result :=
  requireThen [d] s (s.putLoaded d (mk96 (shiftInChar (s.x d).val ch)))

end Sys2Proof.Machine
end

