-- ==== Sys2Proof/Machine/Flags.lean ====
section
/-! DEFINITION. The computations of FLAG (44_ordering.md, 45_inclusion.md) and the STATUS word (10_state.md R27). -/

namespace Sys2Proof.Machine

/-! ## FLAG -/

/-- `X[0].pcnt < X[1].pcnt` (44_ordering.md R110). -/
def flagLt (a b : BitString) : Bool := decide (a.pcnt.toNat < b.pcnt.toNat)

/-- `X[0].pcnt > X[1].pcnt` (44_ordering.md R111). -/
def flagGt (a b : BitString) : Bool := decide (b.pcnt.toNat < a.pcnt.toNat)

/-- `X[0].pcnt <= X[1].pcnt` (44_ordering.md R112). -/
def flagLe (a b : BitString) : Bool := decide (a.pcnt.toNat ≤ b.pcnt.toNat)

/-- `X[0].pcnt >= X[1].pcnt` (44_ordering.md R113). -/
def flagGe (a b : BitString) : Bool := decide (b.pcnt.toNat ≤ a.pcnt.toNat)

/-- `X[0].pcnt = X[1].pcnt` (44_ordering.md R114): population counts, not bit patterns. -/
def flagEq (a b : BitString) : Bool := decide (a.pcnt.toNat = b.pcnt.toNat)

/-- `X[0].pcnt != X[1].pcnt` (44_ordering.md R115). -/
def flagNe (a b : BitString) : Bool := decide (a.pcnt.toNat ≠ b.pcnt.toNat)

/-- Bit-pattern equality of head and tail (44_ordering.md R116); the counts are not compared. -/
def flagBeq (a b : BitString) : Bool := decide (a.head = b.head ∧ a.tail = b.tail)

/-- `a` includes `b` (45_inclusion.md R120). -/
def flagIncl (a b : BitString) : Bool := decide (a.head &&& b.head = b.head ∧ a.tail &&& b.tail = b.tail)

/-! ## STATUS -/

/-- The code of RKIND (10_state.md R27). -/
def RKind.code : RKind → BitVec 3
  | .none => 0#3
  | .bits => 1#3
  | .bool => 2#3
  | .count => 3#3
  | .loaded => 4#3
  | .bad => 5#3
  | .fault => 6#3

/-- The code of FCAUSE (10_state.md R27). -/
def FCause.code : FCause → BitVec 2
  | .none => 0#2
  | .uninit0 => 1#2
  | .uninit1 => 2#2

/-- The 32-bit STATUS word: [31:16] reserved 0, V1, V0, FCAUSE, FAULT, CNT, FLAG, RKIND (10_state.md R27). -/
def State.statusWord (s : State) : BitVec 32 :=
  0#16 ++ BitVec.ofBool s.v1 ++ BitVec.ofBool s.v0 ++ s.fcause.code ++ BitVec.ofBool s.fault ++ s.cnt
    ++ BitVec.ofBool s.flag ++ s.rkind.code

end Sys2Proof.Machine
end

