-- ==== Sys2Proof/Machine/Inclusion.lean ====
section
/-! DEFINITION. Subset inclusion (45_inclusion.md). -/

namespace Sys2Proof.Machine

/-- INCL: X[0] includes X[1] (45_inclusion.md R120). -/
def execIncl (s : State) : Result := requireThen bothRegisters s (s.putFlag (flagIncl s.x0 s.x1))

end Sys2Proof.Machine
end

