-- ==== Sys2Proof/Machine/Ordering.lean ====
section
/-! DEFINITION. The ordering and equality commands: six by population count, BEQ by bit pattern (44_ordering.md). -/

namespace Sys2Proof.Machine

/-- LT (44_ordering.md R110). -/
def execLt (s : State) : Result := requireThen bothRegisters s (s.putFlag (flagLt s.x0 s.x1))

/-- GT (44_ordering.md R111). -/
def execGt (s : State) : Result := requireThen bothRegisters s (s.putFlag (flagGt s.x0 s.x1))

/-- LE (44_ordering.md R112). -/
def execLe (s : State) : Result := requireThen bothRegisters s (s.putFlag (flagLe s.x0 s.x1))

/-- GE (44_ordering.md R113). -/
def execGe (s : State) : Result := requireThen bothRegisters s (s.putFlag (flagGe s.x0 s.x1))

/-- EQ (44_ordering.md R114). -/
def execEq (s : State) : Result := requireThen bothRegisters s (s.putFlag (flagEq s.x0 s.x1))

/-- NE (44_ordering.md R115). -/
def execNe (s : State) : Result := requireThen bothRegisters s (s.putFlag (flagNe s.x0 s.x1))

/-- BEQ (44_ordering.md R116). -/
def execBeq (s : State) : Result := requireThen bothRegisters s (s.putFlag (flagBeq s.x0 s.x1))

end Sys2Proof.Machine
end

