-- ==== Sys2Proof/Machine/Popcount.lean ====
section
/-! DEFINITION. POPCNT (43_popcount.md): the cached count is read, never recounted (R102). -/

namespace Sys2Proof.Machine

/-- POPCNT (43_popcount.md R100). -/
def execPopcnt (s : State) : Result :=
  requireThen accumulatorOnly s (s.putCount s.x0.pcnt)

end Sys2Proof.Machine
end

