-- ==== Sys2Proof/Machine/Shift.lean ====
section
/-! DEFINITION. The barrel shifter: SHL and SHR on the 96-bit value (42_shift.md R90, R91), and the two-word datapaths that
compute the same values (R92, R93). -/

namespace Sys2Proof.Machine

/-- SHL N (42_shift.md R90), for every natural N: no shift amount faults. -/
def execShl (n : Nat) (s : State) : Result :=
  requireThen accumulatorOnly s (s.putBits (mk96 (shlN s.x0.val n)))

/-- SHR N (42_shift.md R91), for every natural N: zeros enter, bit 95 is not copied. -/
def execShr (n : Nat) (s : State) : Result :=
  requireThen accumulatorOnly s (s.putBits (mk96 (shrN s.x0.val n)))

/-- The two-word left shift (42_shift.md R92): the words h' and t'. Every word shift is by less than its word's width. -/
def shlWords (h : Head) (t : Tail) (n : Nat) : Head × Tail :=
  if 96 ≤ n then (0#64, 0#32)
  else if 64 ≤ n then (shlN (t.setWidth 64) (n - 32), 0#32)
  else if 32 ≤ n then (shlN h n ||| shlN (t.setWidth 64) (n - 32), 0#32)
  else (shlN h n ||| shrN (t.setWidth 64) (32 - n), shlN t n)

/-- The two-word right shift (42_shift.md R93): the words h' and t'. For 64 <= N < 96 it is the single shift by N - 32 that
42_shift.md R94 keeps; every N >= 96 gives zero (90_conflicts.md C2). -/
def shrWords (h : Head) (t : Tail) (n : Nat) : Head × Tail :=
  if 96 ≤ n then (0#64, 0#32)
  else if 64 ≤ n then (0#64, (shrN h (n - 32)).setWidth 32)
  else if 32 ≤ n then (shrN h n, (shrN h (n - 32)).setWidth 32)
  else (shrN h n, (shlN h (32 - n)).setWidth 32 ||| shrN t n)

end Sys2Proof.Machine
end

