-- ==== Sys2Proof/Machine/Dispatch.lean ====
section
/-! DEFINITION. One arm per constructor of Instr, each one call of its meaning. -/

namespace Sys2Proof.Machine

open Host

def exec (i : Instr) (s : State) : Host.Outcome State Fault Refusal :=
  match i with
  | .and => Sys2Proof.Machine.execAnd s
  | .or => Sys2Proof.Machine.execOr s
  | .xor => Sys2Proof.Machine.execXor s
  | .not => Sys2Proof.Machine.execNot s
  | .shl n => Sys2Proof.Machine.execShl n s
  | .shr n => Sys2Proof.Machine.execShr n s
  | .popcnt => Sys2Proof.Machine.execPopcnt s
  | .lt => Sys2Proof.Machine.execLt s
  | .gt => Sys2Proof.Machine.execGt s
  | .le => Sys2Proof.Machine.execLe s
  | .ge => Sys2Proof.Machine.execGe s
  | .eq => Sys2Proof.Machine.execEq s
  | .ne => Sys2Proof.Machine.execNe s
  | .incl => Sys2Proof.Machine.execIncl s
  | .beq => Sys2Proof.Machine.execBeq s
  | .ldw d head tail => Sys2Proof.Machine.execLdw d head tail s
  | .ldpz d => Sys2Proof.Machine.execLdpz d s
  | .ldpc d ch => Sys2Proof.Machine.execLdpc d ch s

end Sys2Proof.Machine
end

