-- ==== Sys2Proof/Machine/Ports.lean ====
section
/-! DEFINITION. The block's ports: the command port (30_encoding.md R58, 60_exceptions.md R130), the read ports
(10_state.md R33, 20_memory.md R42, R44) and reads made during a command (70_reset_and_hazards.md R157). -/

namespace Sys2Proof.Machine

open Host

/-! ## Command port -/

/-- A command word executed as one atomic step (00_scope.md R10): decode first, so a BAD word never raises UNINIT
(60_exceptions.md R137). -/
def runWord (w : CmdWord) (s : State) : Result :=
  match decode w with
  | .command i => exec i s
  | .bad _ => .next s.rejectBad

/-- A command word carried as bytes: only a whole word reaches the decoder (20_memory.md R42, R43). -/
def runBytes (bs : List Byte) (s : State) : Result :=
  match wordOfBytes bs with
  | some w => runWord w s
  | none => .refused (.partialWord bs.length)

/-! ## Read ports -/

/-- RD_X0 and RD_X1: the value and its count, and no value while V[d] = 0 (10_state.md R33, 70_reset_and_hazards.md R154). -/
def State.readX (s : State) (d : Reg) : Option (Value × Count) :=
  if s.v d then some ((s.x d).val, (s.x d).pcnt) else none

/-- What each read port answers in a state; the whole register in one read (20_memory.md R44). -/
def State.readPort (s : State) : ReadPort → PortValue
  | .x d => .x d (s.readX d)
  | .status => .status s.statusWord

/-- The 12 bytes of a value carried on RD_X0 or RD_X1: byte 0 is tail[7:0], byte 11 is head[63:56] (20_memory.md R42). -/
def bytesOfValue (v : Value) : List Byte := (List.range 12).map fun k => v.extractLsb' (8 * k) 8

/-- The 4 bytes of the STATUS word, in the same order (20_memory.md R42). -/
def bytesOfStatus (w : BitVec 32) : List Byte := (List.range 4).map fun k => w.extractLsb' (8 * k) 8

/-- A read between commands: the host has the port's answer, and the block is as it was (10_state.md R33, 20_memory.md R44). -/
def State.observe (s : State) (p : ReadPort) : State := { s with observed := s.readPort p :: s.observed }

/-- Reads made while a command takes the block from `before` to `after`: each returns the whole of one of the two states,
and which one is a free value (70_reset_and_hazards.md R157; log 7). -/
def observeDuring (before after : State) : List ReadPort → State → State
  | [], t => t
  | p :: rest, t =>
    observeDuring before after rest
      { t with
        observed := (if Config.midReadSeesNew t.midReads then after else before).readPort p :: t.observed
        midReads := t.midReads + 1 }

/-! ## One host input -/

/-- A command word executed while the host strobes read ports (70_reset_and_hazards.md R157). -/
def runWordWithReads (w : CmdWord) (ports : List ReadPort) (s : State) : Result :=
  match runWord w s with
  | .next t => .next (observeDuring s t ports t)
  | .fault r => .fault r
  | .refused r => .refused r

/-- Reset applied while a command is executing: whatever the command had done is overwritten (70_reset_and_hazards.md
R152). -/
def runWordThenReset (w : CmdWord) (s : State) : Result :=
  match runWord w s with
  | .next t => .next t.applyReset
  | .fault r => .fault r
  | .refused r => .refused r

/-- What one input of the host does to the block. -/
def runInput (input : HostInput) (s : State) : Result :=
  match input with
  | .command w => runWord w s
  | .commandBytes bs => runBytes bs s
  | .commandWithReads w ports => runWordWithReads w ports s
  | .read p => .next (s.observe p)
  | .reset => .next s.applyReset
  | .resetDuring w => runWordThenReset w s

/-- The block takes the host's next input, inputs being handled one at a time in the host's order (20_memory.md R46,
70_reset_and_hazards.md R156); while none comes it holds its state (60_exceptions.md R147). -/
def takeInput (s : State) : Result :=
  match s.input with
  | [] => .next s
  | input :: rest => runInput input { s with input := rest }

end Sys2Proof.Machine
end

