-- ==== Sys2Proof/Machine/Step.lean ====
section
/-! DEFINITION. One step of the machine: the block takes the host's next input. -/

namespace Sys2Proof.Machine

open Host

/-- One step: the next input of the host is taken, one command being one step (70_reset_and_hazards.md R158). -/
def step : State → Host.Outcome State Fault Refusal := takeInput

/-- The command word that the table's bits `w` give, put on the command port as the host's next input, so that the very next
step runs it (log 2). -/
def State.withFetchWord (s : State) (nbits w : Nat) : State :=
  { s with input := .command (tableWord nbits w) :: s.input }

end Sys2Proof.Machine
end

