-- ==== Sys2Proof/Machine/HostMapping.lean ====
section
/-! DEFINITION. The host's mapping onto commands: the pattern load (30_encoding.md R64), the driver's operator tokens (R65),
shift-amount saturation (R68) and one test line (R67). -/

namespace Sys2Proof.Machine

/-! ## Characters and numbers -/

/-- The 8-bit code of a character, where it has one (40_construction.md R76). -/
def charCode (c : Char) : Option CharCode := if c.toNat < 256 then some (BitVec.ofNat 8 c.toNat) else none

/-- The codes of a text, where every character has one. -/
def textCodes : List Char → Option (List CharCode)
  | [] => some []
  | c :: rest =>
    match charCode c, textCodes rest with
    | some code, some codes => some (code :: codes)
    | _, _ => none

/-- The value of a hexadecimal digit, a decimal one among them. -/
def digitValue (c : Char) : Option Nat :=
  if 48 ≤ c.toNat ∧ c.toNat ≤ 57 then some (c.toNat - 48)
  else if 97 ≤ c.toNat ∧ c.toNat ≤ 102 then some (c.toNat - 87)
  else if 65 ≤ c.toNat ∧ c.toNat ≤ 70 then some (c.toNat - 55)
  else none

/-- The number that digits of a base continue from `acc`. -/
def digitsFrom (base : Nat) : Nat → List Char → Option Nat
  | acc, [] => some acc
  | acc, c :: rest =>
    match digitValue c with
    | some v => if v < base then digitsFrom base (acc * base + v) rest else none
    | none => none

/-- A non-negative decimal integer (30_encoding.md R67); no number is read from an empty or malformed text (log 18). -/
def decimalNumber (text : List Char) : Option Nat := if text = [] then none else digitsFrom 10 0 text

/-! ## Pattern load -/

/-- The characters of a pattern, each shifted in by one LDPC, in text order (30_encoding.md R64). -/
def ldpcAll (d : Reg) (text : List CharCode) : List Instr := text.map (.ldpc d)

/-- `ldp xd, "text"`: LDPZ, then one LDPC per character (30_encoding.md R64). -/
def ldp (d : Reg) (text : List CharCode) : List Instr := .ldpz d :: ldpcAll d text

/-! ## The driver's tokens -/

/-- The shift amount a host holding n issues: at most 2^32 - 1 (30_encoding.md R68). -/
def saturateShift (n : Nat) : Nat := min n 4294967295

/-- What an operator token selects (30_encoding.md R65, R67). -/
inductive Operator where
  | binary (i : Instr)
  | shiftLeft
  | shiftRight
  | unary (i : Instr)
  | unknown
  deriving DecidableEq, Repr

/-- The closed set of operator tokens (30_encoding.md R65). -/
def operatorOf (token : List Char) : Operator :=
  if token = "&".toList then .binary .and
  else if token = "|".toList then .binary .or
  else if token = "^".toList then .binary .xor
  else if token = "<".toList then .binary .lt
  else if token = ">".toList then .binary .gt
  else if token = "<=".toList then .binary .le
  else if token = ">=".toList then .binary .ge
  else if token = "==".toList then .binary .eq
  else if token = "!=".toList then .binary .ne
  else if token = "includes".toList then .binary .incl
  else if token = "<<".toList then .shiftLeft
  else if token = ">>".toList then .shiftRight
  else if token = "~".toList then .unary .not
  else if token = "set_bits".toList then .unary .popcnt
  else .unknown

/-- The reserved word a host issues for an unrecognized token (30_encoding.md R65). -/
def badInputWord : CmdWord := 0#128

/-- The command words of one test line `<operand1> <operator> [<operand2>]` (30_encoding.md R67). No sequence is given for
an operand the spec leaves to the driver: a character without an 8-bit code, a missing operand, a shift amount that is no
decimal integer (log 18). -/
def testLine (operand1 token : List Char) (operand2 : Option (List Char)) : Option (List CmdWord) :=
  match textCodes operand1 with
  | none => none
  | some text1 =>
    match operatorOf token with
    | .binary i =>
      match operand2.bind textCodes with
      | some text2 => some ((ldp .x0 text1 ++ ldp .x1 text2 ++ [i]).map encode)
      | none => none
    | .shiftLeft =>
      match operand2.bind decimalNumber with
      | some n => some ((ldp .x0 text1 ++ [Instr.shl (saturateShift n)]).map encode)
      | none => none
    | .shiftRight =>
      match operand2.bind decimalNumber with
      | some n => some ((ldp .x0 text1 ++ [Instr.shr (saturateShift n)]).map encode)
      | none => none
    | .unary i => some ((ldp .x0 text1 ++ [i]).map encode)
    | .unknown => some ((ldp .x0 text1).map encode ++ [badInputWord])

end Sys2Proof.Machine
end

