-- ==== Sys2Proof/Machine/Assembler.lean ====
section
/-! DEFINITION. The assembler syntax (30_encoding.md R63, R64): one command a line. Blanks and the letter case of hexadecimal
digits are the model's choice (log 16); no semantics depend on it. -/

namespace Sys2Proof.Machine

/-- A text without its leading blanks. -/
def dropBlanks : List Char → List Char
  | [] => []
  | c :: rest => if c = ' ' then dropBlanks rest else c :: rest

/-- A text without its leading and trailing blanks. -/
def stripBlanks (text : List Char) : List Char := (dropBlanks (dropBlanks text).reverse).reverse

/-- A text cut at the first `mark`: what stands before it, and what stands after it if it occurs. -/
def cutAt (mark : Char) : List Char → List Char × Option (List Char)
  | [] => ([], none)
  | c :: rest => if c = mark then ([], some rest) else (c :: (cutAt mark rest).1, (cutAt mark rest).2)

/-- A decimal number, or a hexadecimal one after `0x`. -/
def number (text : List Char) : Option Nat :=
  match text with
  | '0' :: 'x' :: c :: rest => digitsFrom 16 0 (c :: rest)
  | _ => decimalNumber text

/-- A number below a bound. -/
def numberBelow (bound : Nat) (text : List Char) : Option Nat :=
  match number text with
  | some n => if n < bound then some n else none
  | none => none

/-- A register operand. -/
def regOperand (text : List Char) : Option Reg :=
  if text = "x0".toList then some .x0 else if text = "x1".toList then some .x1 else none

/-- A character operand: `'c'`, or a number 0..255. -/
def charOperand (text : List Char) : Option CharCode :=
  match text with
  | ['\'', c, '\''] => charCode c
  | _ => (numberBelow 256 text).map fun n => BitVec.ofNat 8 n

/-- The characters between two double quotes. -/
def quotedText (text : List Char) : Option (List CharCode) :=
  match text with
  | '"' :: rest =>
    match rest.reverse with
    | '"' :: body => textCodes body.reverse
    | _ => none
  | _ => none

/-- The first operand and the rest of the operands, the comma between them removed. -/
def firstOperand (text : List Char) : List Char × Option (List Char) :=
  (stripBlanks (cutAt ',' text).1, (cutAt ',' text).2.map stripBlanks)

/-- The command of a mnemonic of format R (30_encoding.md R63). -/
def plainCommand (mnemonic : List Char) : Option Instr :=
  if mnemonic = "and".toList then some .and
  else if mnemonic = "or".toList then some .or
  else if mnemonic = "xor".toList then some .xor
  else if mnemonic = "not".toList then some .not
  else if mnemonic = "popcnt".toList then some .popcnt
  else if mnemonic = "lt".toList then some .lt
  else if mnemonic = "gt".toList then some .gt
  else if mnemonic = "le".toList then some .le
  else if mnemonic = "ge".toList then some .ge
  else if mnemonic = "eq".toList then some .eq
  else if mnemonic = "ne".toList then some .ne
  else if mnemonic = "incl".toList then some .incl
  else if mnemonic = "beq".toList then some .beq
  else none

/-- `ldw xd, HEAD, TAIL`, from its operands. -/
def assembleLdw (operands : List Char) : Option Instr :=
  match firstOperand operands with
  | (reg, some rest) =>
    match regOperand reg, firstOperand rest with
    | some d, (head, some tail) =>
      match numberBelow (2 ^ 64) head, numberBelow (2 ^ 32) tail with
      | some h, some t => some (.ldw d (BitVec.ofNat 64 h) (BitVec.ofNat 32 t))
      | _, _ => none
    | _, _ => none
  | (_, none) => none

/-- `ldpc xd, C`, from its operands. -/
def assembleLdpc (operands : List Char) : Option Instr :=
  match firstOperand operands with
  | (reg, some rest) =>
    match regOperand reg, charOperand rest with
    | some d, some ch => some (.ldpc d ch)
    | _, _ => none
  | (_, none) => none

/-- `ldp xd, "text"`, from its operands: the commands it expands to (30_encoding.md R64). -/
def assembleLdp (operands : List Char) : Option (List Instr) :=
  match firstOperand operands with
  | (reg, some rest) =>
    match regOperand reg, quotedText rest with
    | some d, some text => some (ldp d text)
    | _, _ => none
  | (_, none) => none

/-- `.word 0x<32 hex digits>`, from its operand: the raw word (30_encoding.md R63).
DESIGN CHOICE (log 22): fewer digits, at least one, are read as the word's low digits, for 30_encoding.md R67 and
95_test_vectors.md write `.word 0x0` and `.word 0x13`. -/
def assembleWord (operand : List Char) : Option CmdWord :=
  match operand with
  | '0' :: 'x' :: digits =>
    if 1 ≤ digits.length ∧ digits.length ≤ 32 then (digitsFrom 16 0 digits).map fun n => BitVec.ofNat 128 n else none
  | _ => none

/-- The command words of one mnemonic and its operands (30_encoding.md R63, R64). -/
def assembleCommand (mnemonic operands : List Char) : Option (List CmdWord) :=
  if mnemonic = "shl".toList then (numberBelow (2 ^ 32) operands).map fun n => [encode (.shl n)]
  else if mnemonic = "shr".toList then (numberBelow (2 ^ 32) operands).map fun n => [encode (.shr n)]
  else if mnemonic = "ldw".toList then (assembleLdw operands).map fun i => [encode i]
  else if mnemonic = "ldpz".toList then (regOperand operands).map fun d => [encode (.ldpz d)]
  else if mnemonic = "ldpc".toList then (assembleLdpc operands).map fun i => [encode i]
  else if mnemonic = "ldp".toList then (assembleLdp operands).map fun is => is.map encode
  else if mnemonic = ".word".toList then (assembleWord operands).map fun w => [w]
  else if operands = [] then (plainCommand mnemonic).map fun i => [encode i]
  else none

/-- The command words of one line; `none` for a text that is no line of the syntax. -/
def assembleLine (line : List Char) : Option (List CmdWord) :=
  assembleCommand (cutAt ' ' (stripBlanks line)).1 (stripBlanks ((cutAt ' ' (stripBlanks line)).2.getD []))

/-- The command words of a program, one command a line, in order. -/
def assemble : List (List Char) → Option (List CmdWord)
  | [] => some []
  | line :: rest =>
    match assembleLine line, assemble rest with
    | some ws, some more => some (ws ++ more)
    | _, _ => none

end Sys2Proof.Machine
end

