-- ==== Sys2Proof/Machine/ReadOut.lean ====
section
/-! DEFINITION. Read-out: the canonical rendering of a value and what the host reports after a test line (46_readout.md).
No command renders; these are functions of what the read ports answer. -/

namespace Sys2Proof.Machine

/-- A word as a zero-padded binary string, the most significant bit first (46_readout.md R125). -/
def renderBits {n : Nat} (v : BitVec n) : List Char :=
  (List.range n).map fun j => if v.getLsbD (n - 1 - j) then '1' else '0'

/-- `render` of a value: the 64 characters of its head, then the 32 characters of its tail (46_readout.md R125). -/
def render (v : Value) : List Char := renderBits (v.extractLsb' 32 64) ++ renderBits (v.extractLsb' 0 32)

/-- A count as an unsigned decimal integer with no leading zeros (46_readout.md R127). PRESUMED (log 15): the spec marks the
decimal base as general knowledge. -/
def decimalOf (c : Count) : List Char := Nat.toDigits 10 c.toNat

/-- The result line the host reports, read from the ports under RKIND (46_readout.md R127); no line for NONE, LOADED and
FAULT, for which the spec defines none (log 17), or where RD_X0 has no value. -/
def State.reportLine (s : State) : Option (List Char) :=
  match s.rkind with
  | .none => none
  | .bits => (s.readX .x0).map fun answer => render answer.1
  | .bool => some (if s.flag then "true".toList else "false".toList)
  | .count => some (decimalOf s.cnt)
  | .loaded => none
  | .bad => some "Bad input!".toList
  | .fault => none

/-- What the host prints after a test line: the result line, then a blank line (46_readout.md R127, 90_conflicts.md C3).
DESIGN CHOICE (log 21): each of the two lines ends with the one character '\n'; the spec names no line terminator. -/
def State.report (s : State) : Option (List Char) := s.reportLine.map fun line => line ++ ['\n', '\n']

end Sys2Proof.Machine
end

