-- ==== Sys2Proof/Safety.lean ====
section
/-! DEFINITION. What claims about runs are made of: the faulted condition (60_exceptions.md R134), the invariant of the block
(10_state.md R21, R27), the order a host keeps (70_reset_and_hazards.md R153) and states that differ only in what the spec
gives no value. -/

namespace Sys2Proof.Machine

/-- A state with FAULT = 1 is faulted, and a claim about a command sequence takes FAULT = 0 at its end as a premise
(60_exceptions.md R134). -/
def State.faulted (s : State) : Bool := s.fault

/-- The cached count is the number of set bits of head and tail (10_state.md R21). -/
def BitString.countExact (b : BitString) : Prop := b.pcnt.toNat = popcount b.head + popcount b.tail

/-- What a read port answered fits together: a value with its own count (20_memory.md R44, 70_reset_and_hazards.md R155). -/
def PortValue.countExact : PortValue → Prop
  | .x _ none => True
  | .x _ (some (v, c)) => c.toNat = popcount v
  | .status _ => True

/-- The invariant of the block: every loaded register's count is exact (10_state.md R21), the STATUS fields take only legal
values and RKIND says what they hold (10_state.md R27), and no read port ever answered a stale count (R155). -/
structure State.Inv (s : State) : Prop where
  /-- 10_state.md R21 for X[0]. -/
  count0 : s.v0 = true → s.x0.countExact
  /-- 10_state.md R21 for X[1]. -/
  count1 : s.v1 = true → s.x1.countExact
  /-- CNT is 0..96; 97..127 are never produced (10_state.md R27). -/
  cntLegal : s.cnt.toNat ≤ 96
  /-- FCAUSE is 0 exactly while no command has raised UNINIT since reset (10_state.md R27). -/
  causeIffFault : s.fcause = .none ↔ s.fault = false
  /-- NONE says that no command has run since reset (10_state.md R27), so everything is as after reset (R34). -/
  noneAfterReset :
    s.rkind = .none → s.v0 = false ∧ s.v1 = false ∧ s.flag = false ∧ s.cnt = 0#7 ∧ s.fault = false
  /-- BITS says that X[0] was written (10_state.md R27). -/
  bitsLoaded : s.rkind = .bits → s.v0 = true
  /-- BOOL says that a predicate has read both registers (10_state.md R26, R27). -/
  boolLoaded : s.rkind = .bool → s.v0 = true ∧ s.v1 = true
  /-- COUNT says that CNT is the count of X[0], which no command has written since (10_state.md R26, R27). -/
  countOfX0 : s.rkind = .count → s.v0 = true ∧ s.cnt = s.x0.pcnt
  /-- LOADED says that some register was loaded (10_state.md R27). -/
  loadedSome : s.rkind = .loaded → s.v0 = true ∨ s.v1 = true
  /-- RKIND FAULT says that FAULT is set (60_exceptions.md R134). -/
  faultSet : s.rkind = .fault → s.fault = true
  /-- No answer of a read port holds a count of another write (20_memory.md R44). -/
  observedExact : ∀ answer ∈ s.observed, answer.countExact

/-- Two register contents that agree where a register is loaded. -/
def agreeWhenLoaded (loaded : Bool) (a b : BitString) : Prop := loaded = true → a = b

/-- Two states that differ at most in the contents of unloaded registers, to which the spec gives no value (10_state.md R33,
R34). -/
structure State.SameButUnloaded (s t : State) : Prop where
  x0 : agreeWhenLoaded s.v0 s.x0 t.x0
  x1 : agreeWhenLoaded s.v1 s.x1 t.x1
  v0 : s.v0 = t.v0
  v1 : s.v1 = t.v1
  rkind : s.rkind = t.rkind
  flag : s.flag = t.flag
  cnt : s.cnt = t.cnt
  fault : s.fault = t.fault
  fcause : s.fcause = t.fcause
  input : s.input = t.input
  observed : s.observed = t.observed
  midReads : s.midReads = t.midReads

/-- The register that a command loads without reading it: LDW and LDPZ (70_reset_and_hazards.md R153). -/
def loadOf : Instr → Option Reg
  | .and => none
  | .or => none
  | .xor => none
  | .not => none
  | .shl _ => none
  | .shr _ => none
  | .popcnt => none
  | .lt => none
  | .gt => none
  | .le => none
  | .ge => none
  | .eq => none
  | .ne => none
  | .incl => none
  | .beq => none
  | .ldw d _ _ => some d
  | .ldpz d => some d
  | .ldpc _ _ => none

/-- Whether register d is loaded, given which are. -/
def isLoaded (v0 v1 : Bool) : Reg → Bool
  | .x0 => v0
  | .x1 => v1

/-- The order a host keeps: every register a command reads has been loaded before (70_reset_and_hazards.md R153). -/
def keepsLoadOrder (v0 v1 : Bool) : List Instr → Bool
  | [] => true
  | i :: rest =>
    (readsOf i).all (isLoaded v0 v1)
      && keepsLoadOrder (v0 || decide (loadOf i = some .x0)) (v1 || decide (loadOf i = some .x1)) rest

/-- Commands as the host issues them, each in its command word. -/
def issue (is : List Instr) : List HostInput := is.map fun i => .command (encode i)

end Sys2Proof.Machine
end

