-- ==== Sys2Proof/Certificates/Slice0/Obligations.lean ====
section
/-! DEFINITION. The statements for the provers, from the spec's numbered rules. What a rule computes is written here in the
rule's own terms (a sum over bits, a product modulo 2^96), apart from the operations the model computes it with. -/

namespace Sys2Proof.Claim

open Sys2Proof.Machine Host

/-! ## The rules' own terms -/

/-- `popcount_N(v)` as the sum the spec writes (00_scope.md R8). -/
def bitSum {n : Nat} (v : BitVec n) : Nat := ∑ i ∈ Finset.range n, (v.getLsbD i).toNat

/-- The content that `mk(h, t)` writes (00_scope.md R9). -/
def content (h : Head) (t : Tail) : BitString := { head := h, tail := t, pcnt := BitVec.ofNat 7 (bitSum h + bitSum t) }

/-- The content that `mk96(v)` writes (00_scope.md R9). -/
def contentOf (v : Value) : BitString := content (v.extractLsb' 32 64) (v.extractLsb' 0 32)

/-- `shl_96(v, n) = (v * 2^n) mod 2^96` (00_scope.md R8). -/
def shl96 (v : Value) (n : Nat) : Value := BitVec.ofNat 96 (v.toNat * 2 ^ n)

/-- `shr_96(v, n) = floor(v / 2^n)` (00_scope.md R8). -/
def shr96 (v : Value) (n : Nat) : Value := BitVec.ofNat 96 (v.toNat / 2 ^ n)

/-- The effects of `raise UNINIT(d)` and nothing else (60_exceptions.md R134). -/
def afterUninit (s : State) (cause : FCause) : State :=
  { s with fcause := if s.fault then s.fcause else cause, fault := true, rkind := .fault }

/-- A command that requires X[0] raises UNINIT(0) when it is unloaded. -/
def RaisesUninit0 (i : Instr) : Prop := ∀ s : State, s.v0 = false → exec i s = .next (afterUninit s .uninit0)

/-- A command that requires X[0] and then X[1] raises UNINIT(1) when only X[1] is unloaded. -/
def RaisesUninit1 (i : Instr) : Prop :=
  ∀ s : State, s.v0 = true → s.v1 = false → exec i s = .next (afterUninit s .uninit1)

/-- A command's word, in both directions. -/
def HasWord (i : Instr) (w : CmdWord) : Prop := encode i = w ∧ decode w = .command i

/-- The state with the given operands loaded. -/
def operands (s : State) (a b : BitString) : State := { s with x0 := a, x1 := b, v0 := true, v1 := true }

/-- A two-operand command writes X[0] from both operands, sets RKIND to BITS, and leaves everything else unchanged. -/
def WritesBits (i : Instr) (head : Head → Head → Head) (tail : Tail → Tail → Tail) : Prop :=
  ∀ s : State, s.v0 = true → s.v1 = true →
    exec i s =
      .next { s with x0 := content (head s.x0.head s.x1.head) (tail s.x0.tail s.x1.tail), rkind := .bits }

/-- A predicate writes FLAG, sets RKIND to BOOL, and leaves everything else unchanged. -/
def WritesFlag (i : Instr) (f : BitString → BitString → Bool) : Prop :=
  ∀ s : State, s.v0 = true → s.v1 = true → exec i s = .next { s with flag := f s.x0 s.x1, rkind := .bool }

/-- A command completes with X[0] holding a content. -/
def LeavesX0 (i : Instr) (s : State) (b : BitString) : Prop := ∃ t, exec i s = .next t ∧ t.x0 = b

/-- A command completes with FLAG holding a value. -/
def LeavesFlag (i : Instr) (s : State) (f : Bool) : Prop := ∃ t, exec i s = .next t ∧ t.flag = f

/-- The commands that write FLAG (10_state.md R29). -/
def predicates : List Instr := [.lt, .gt, .le, .ge, .eq, .ne, .incl, .beq]

/-- The RKIND each command writes when it completes (10_state.md R27). -/
def kindOf : Instr → RKind
  | .and => .bits
  | .or => .bits
  | .xor => .bits
  | .not => .bits
  | .shl _ => .bits
  | .shr _ => .bits
  | .popcnt => .count
  | .lt => .bool
  | .gt => .bool
  | .le => .bool
  | .ge => .bool
  | .eq => .bool
  | .ne => .bool
  | .incl => .bool
  | .beq => .bool
  | .ldw _ _ _ => .loaded
  | .ldpz _ => .loaded
  | .ldpc _ _ => .loaded

/-- Mask and match of the 18 rows of spec/opcode_table.json, in its order. -/
def opcodeTable : List (CmdWord × CmdWord) :=
  [ (0xffffffffffffffffffffffffffffffff#128, 0x00000000000000000000000000000001#128),
    (0xffffffffffffffffffffffffffffffff#128, 0x00000000000000000000000000000002#128),
    (0xffffffffffffffffffffffffffffffff#128, 0x00000000000000000000000000000003#128),
    (0xffffffffffffffffffffffffffffffff#128, 0x00000000000000000000000000000004#128),
    (0xffffffffffffffff00000000ffffffff#128, 0x00000000000000000000000000000005#128),
    (0xffffffffffffffff00000000ffffffff#128, 0x00000000000000000000000000000006#128),
    (0xffffffffffffffffffffffffffffffff#128, 0x00000000000000000000000000000007#128),
    (0xffffffffffffffffffffffffffffffff#128, 0x00000000000000000000000000000008#128),
    (0xffffffffffffffffffffffffffffffff#128, 0x00000000000000000000000000000009#128),
    (0xffffffffffffffffffffffffffffffff#128, 0x0000000000000000000000000000000a#128),
    (0xffffffffffffffffffffffffffffffff#128, 0x0000000000000000000000000000000b#128),
    (0xffffffffffffffffffffffffffffffff#128, 0x0000000000000000000000000000000c#128),
    (0xffffffffffffffffffffffffffffffff#128, 0x0000000000000000000000000000000d#128),
    (0xffffffffffffffffffffffffffffffff#128, 0x0000000000000000000000000000000e#128),
    (0xffffffffffffffffffffffffffffffff#128, 0x0000000000000000000000000000000f#128),
    (0x000000000000000000000000ffffffdf#128, 0x00000000000000000000000000000010#128),
    (0xffffffffffffffffffffffffffffffdf#128, 0x00000000000000000000000000000011#128),
    (0xffffffffffffffffffffffffffff00df#128, 0x00000000000000000000000000000012#128) ]

/-- A reserved encoding, as 30_encoding.md R60 lists them: a reserved OP, or a nonzero bit outside the live fields of the
OP's format (30_encoding.md R51, R52). -/
def Reserved (w : CmdWord) : Prop :=
  let op := (w.extractLsb' 0 5).toNat
  let d := w.extractLsb' 5 1
  let rsvA := w.extractLsb' 6 2
  let ch := w.extractLsb' 8 8
  let rsvB := w.extractLsb' 16 16
  let imm32 := w.extractLsb' 32 32
  let imm64 := w.extractLsb' 64 64
  op = 0 ∨ 0x13 ≤ op ∨ rsvA ≠ 0#2 ∨ rsvB ≠ 0#16
    ∨ (d ≠ 0#1 ∧ op < 0x10)
    ∨ (ch ≠ 0#8 ∧ op ≠ 0x12)
    ∨ (imm32 ≠ 0#32 ∧ op ≠ 0x05 ∧ op ≠ 0x06 ∧ op ≠ 0x10)
    ∨ (imm64 ≠ 0#64 ∧ op ≠ 0x10)

/-- `true` or `false` as the host prints it (46_readout.md R127). -/
def boolLine (p : Prop) [Decidable p] : List Char := if p then "true".toList else "false".toList

/-- The result line of a test line with a second operand, by the source's semantics of its operator (46_readout.md R127). -/
def binaryLine (token : List Char) (a b : Value) : List Char :=
  if token = "&".toList then render (a &&& b)
  else if token = "|".toList then render (a ||| b)
  else if token = "^".toList then render (a ^^^ b)
  else if token = "<".toList then boolLine (bitSum a < bitSum b)
  else if token = ">".toList then boolLine (bitSum a > bitSum b)
  else if token = "<=".toList then boolLine (bitSum a ≤ bitSum b)
  else if token = ">=".toList then boolLine (bitSum a ≥ bitSum b)
  else if token = "==".toList then boolLine (bitSum a = bitSum b)
  else if token = "!=".toList then boolLine (bitSum a ≠ bitSum b)
  else boolLine (a &&& b = b)

/-- The tokens of the operators with a second operand that is a pattern (30_encoding.md R67). -/
def binaryTokens : List (List Char) :=
  ["&".toList, "|".toList, "^".toList, "<".toList, ">".toList, "<=".toList, ">=".toList, "==".toList, "!=".toList,
    "includes".toList]

/-- All the tokens of the closed set (30_encoding.md R65). -/
def knownTokens : List (List Char) := binaryTokens ++ ["<<".toList, ">>".toList, "~".toList, "set_bits".toList]

/-- Command words on the command port run one a step, and after the last of them the host reports a line and a blank line,
each ended by the model's line terminator (log 21). -/
def RunsAndReports (s : State) (ws : List CmdWord) (line : List Char) : Prop :=
  ∀ rest : List HostInput,
    ∃ t : State, core.run ws.length { s with input := ws.map .command ++ rest } = .next t
      ∧ t.report = some (line ++ ['\n', '\n']) ∧ t.input = rest

end Sys2Proof.Claim

open Sys2Proof Sys2Proof.Machine Sys2Proof.Claim Host

/-! ## Encoding and decoding -/

/-- Words written out from 30_encoding.md R53 to R57 decode to the commands they stand for (sanity). -/
def Obligations.WordsOfTheSpecDecode : Prop :=
  decode 0x00000000000000000000000000000001#128 = .command .and
    ∧ decode 0x00000000000000000000002500000005#128 = .command (.shl 37)
    ∧ decode 0x00000000000000000000000000000007#128 = .command .popcnt
    ∧ decode 0x0000000000000000000000000000000c#128 = .command .eq
    ∧ decode 0x0000000000000000000000000000000e#128 = .command .incl
    ∧ decode 0x0123456789abcdefdeadbeef00000030#128 = .command (.ldw .x1 0x0123456789abcdef#64 0xdeadbeef#32)
    ∧ decode 0x00000000000000000000000000000031#128 = .command (.ldpz .x1)
    ∧ decode 0x00000000000000000000000000003132#128 = .command (.ldpc .x1 0x31#8)

/-- Decoding the word of a well-formed command gives it back, with every operand at every value (30_encoding.md R51 to R58). -/
def Obligations.DecodeOfEncodeIsTheCommand : Prop :=
  ∀ i : Instr, i.wf = true → decode (encode i) = .command i

/-- A word that decodes to a command is that command's only word, and the command is well-formed (30_encoding.md R52, R58):
the decoder drops no bit. -/
def Obligations.EncodeOfDecodeIsTheWord : Prop :=
  ∀ (w : CmdWord) (i : Instr), decode w = .command i → i.wf = true ∧ encode i = w

/-- The decoder accepts exactly the words that some row of spec/opcode_table.json matches under its mask. -/
def Obligations.DecodeAcceptsExactlyTheOpcodeTable : Prop :=
  ∀ w : CmdWord, (∃ i, decode w = .command i) ↔ ∃ row ∈ opcodeTable, w &&& row.1 = row.2

/-- 30_encoding.md R60: the reserved encodings are exactly those the decoder rejects, the all-zero word and a format R or S
word with D = 1 among them, and executing one writes RKIND <- BAD and nothing else. -/
def Obligations.ReservedEncodingsAreExactlyTheBadWords : Prop :=
  (∀ w : CmdWord, (∃ r, decode w = .bad r) ↔ Reserved w)
    ∧ Reserved 0#128
    ∧ (∀ (w : CmdWord) (s : State) (rest : List HostInput), Reserved w → s.input = .command w :: rest →
        step s = .next { s with input := rest, rkind := .bad })

/-- 20_memory.md R42: bytes carry a word, a value and STATUS in little-endian order, and a word issued as its bytes is the
word issued whole. -/
def Obligations.BytesCarryWordsInLittleEndianOrder : Prop :=
  (∀ w : CmdWord, (bytesOfWord w).length = 16 ∧ wordOfBytes (bytesOfWord w) = some w
      ∧ ∀ k < 16, (bytesOfWord w)[k]? = some (w.extractLsb' (8 * k) 8))
    ∧ (∀ bs : List Byte, bs.length = 16 → ∃ w, wordOfBytes bs = some w ∧ bytesOfWord w = bs)
    ∧ (∀ v : Value, (bytesOfValue v).length = 12 ∧ ∀ k < 12, (bytesOfValue v)[k]? = some (v.extractLsb' (8 * k) 8))
    ∧ (∀ h : Head, ∀ t : Tail, (bytesOfValue (h ++ t))[0]? = some (t.extractLsb' 0 8)
        ∧ (bytesOfValue (h ++ t))[11]? = some (h.extractLsb' 56 8))
    ∧ (∀ w : BitVec 32, (bytesOfStatus w).length = 4 ∧ ∀ k < 4, (bytesOfStatus w)[k]? = some (w.extractLsb' (8 * k) 8))
    ∧ (∀ (s : State) (w : CmdWord) (rest : List HostInput),
        step { s with input := .commandBytes (bytesOfWord w) :: rest } = step { s with input := .command w :: rest })

/-- Bytes that are no whole word never reach the decoder (20_memory.md R43, 93_implementation_defined.md U14): decode says so
by name, and the step stops by name. That the step stops is the model's choice (log 10). -/
def Obligations.PartialWordNeverReachesTheDecoder : Prop :=
  (∀ bs : List Byte, bs.length = 16 ↔ ∃ r, decodeBytes bs = .word r)
    ∧ (∀ (s : State) (bs : List Byte) (rest : List HostInput), bs.length ≠ 16 →
        decodeBytes bs = .partialWord bs.length
          ∧ step { s with input := .commandBytes bs :: rest } = .refused (.partialWord bs.length))

/-! ## Steps -/

/-- When the word on the command port decodes to a command, a step takes the word from the port and is exec of that command;
there is no program counter to move (10_state.md R30). -/
def Obligations.StepRunsTheDecodedCommand : Prop :=
  ∀ (s : State) (w : CmdWord) (rest : List HostInput) (i : Instr), s.input = .command w :: rest →
    decode w = .command i → step s = exec i { s with input := rest }

/-- 60_exceptions.md R132: executing a BAD word writes RKIND <- BAD, and X[0], X[1], V[0], V[1], FLAG, CNT, FAULT and FCAUSE
are unchanged. -/
def Obligations.BadWordWritesOnlyRkind : Prop :=
  ∀ (s : State) (w : CmdWord) (rest : List HostInput) (r : BadReason), s.input = .command w :: rest →
    decode w = .bad r → step s = .next { s with input := rest, rkind := .bad }

/-- 60_exceptions.md R147: while no command arrives and reset is not asserted, the block holds its state; a read strobe
changes nothing but what the host has observed. -/
def Obligations.BlockHoldsItsStateBetweenCommands : Prop :=
  (∀ s : State, s.input = [] → step s = .next s)
    ∧ (∀ (s : State) (p : ReadPort) (rest : List HostInput), s.input = .read p :: rest →
        ∃ answer, step s = .next { s with input := rest, observed := answer :: s.observed })

/-! ## Reset -/

/-- The state after reset (10_state.md R34): both registers unloaded, STATUS all zeros, the read ports without a value. The
register contents at reset are the model's choice (log 1), and no clause is about them. Then the block waits
(70_reset_and_hazards.md R151). -/
def Obligations.ResetStateIsUnloadedAndClear : Prop :=
  State.reset.v0 = false ∧ State.reset.v1 = false
    ∧ State.reset.readPort .status = .status 0#32
    ∧ State.reset.readPort (.x .x0) = .x .x0 none
    ∧ State.reset.readPort (.x .x1) = .x .x1 none
    ∧ step State.reset = .next State.reset

/-- 70_reset_and_hazards.md R150: reset clears both valid bits and all of STATUS, the registers are without a value, and
reset is the only action that clears V[0], V[1], FAULT and FCAUSE. -/
def Obligations.ResetClearsTheBlockAndNothingElseDoes : Prop :=
  (∀ (s : State) (rest : List HostInput), s.input = .reset :: rest →
      ∃ t, step s = .next t ∧ t.v0 = false ∧ t.v1 = false ∧ t.rkind = .none ∧ t.flag = false ∧ t.cnt = 0#7
        ∧ t.fault = false ∧ t.fcause = .none ∧ t.readPort .status = .status 0#32
        ∧ (∀ d, t.readPort (.x d) = .x d none) ∧ t.input = rest ∧ t.observed = s.observed)
    ∧ (∀ s t : State, step s = .next t →
        (s.v0 = true ∧ t.v0 = false) ∨ (s.v1 = true ∧ t.v1 = false) ∨ (s.fault = true ∧ t.fault = false)
          ∨ (s.fault = true ∧ t.fcause ≠ s.fcause) →
        (∃ rest, s.input = .reset :: rest) ∨ (∃ w rest, s.input = .resetDuring w :: rest))

/-- 70_reset_and_hazards.md R152: reset applied while a command is executing leaves the reset state, whatever the command
is: the same as reset applied between commands. -/
def Obligations.ResetDuringACommandIsReset : Prop :=
  ∀ (s : State) (w : CmdWord) (rest : List HostInput),
    (∃ t, step { s with input := .resetDuring w :: rest } = .next t)
      ∧ step { s with input := .resetDuring w :: rest } = step { s with input := .reset :: rest }

/-! ## The invariant, and what is not observable -/

/-- The invariant holds after reset. Its clauses about register contents are empty there, so no clause rests on log 1. -/
def Obligations.InvariantHoldsAfterReset : Prop := State.reset.Inv

/-- 10_state.md R21: no command and no port can make the count of a loaded register wrong, and with it every STATUS field
keeps a legal value and RKIND says what the fields hold (10_state.md R27), and no read port, during a command included, ever
answers a stale count (70_reset_and_hazards.md R155). -/
def Obligations.EveryStepKeepsTheInvariant : Prop :=
  ∀ s t : State, s.Inv → step s = .next t → t.Inv

/-- The contents of unloaded registers, to which the spec gives no value (10_state.md R33, R34), are never observable: two
states that differ in nothing else go on to differ in nothing else, whatever the host does, reads of the ports included. So
no run can show the contents the model chose at reset (log 1). -/
def Obligations.UnloadedContentsAreNeverObservable : Prop :=
  ∀ s u t : State, s.SameButUnloaded u → step s = .next t → ∃ t', step u = .next t' ∧ t.SameButUnloaded t'

/-! ## Outcomes and UNINIT -/

/-- 60_exceptions.md R130: every command word has exactly one of three outcomes, reported in RKIND: it completes with the
RKIND of its rule, it is rejected with BAD, or it reads an unloaded register with FAULT; none stops the block. -/
def Obligations.EveryCommandWordHasExactlyOneOutcome : Prop :=
  ∀ (s : State) (w : CmdWord) (rest : List HostInput), s.input = .command w :: rest →
    ∃ t, step s = .next t ∧ t.input = rest
      ∧ ((∃ i, decode w = .command i ∧ (∀ d ∈ readsOf i, s.v d = true) ∧ t.rkind = kindOf i ∧ kindOf i ≠ .bad
            ∧ kindOf i ≠ .fault)
          ∨ ((∃ r, decode w = .bad r) ∧ t.rkind = .bad)
          ∨ (∃ i, ∃ d ∈ readsOf i, decode w = .command i ∧ s.v d = false ∧ t.rkind = .fault))

/-- 60_exceptions.md R133: every command whose operand registers are loaded completes as its rule says: with its RKIND and
without raising anything. -/
def Obligations.CommandsOnLoadedRegistersComplete : Prop :=
  ∀ (i : Instr) (s : State), (∀ d ∈ readsOf i, s.v d = true) →
    ∃ t, exec i s = .next t ∧ t.rkind = kindOf i ∧ t.fault = s.fault ∧ t.fcause = s.fcause

/-- 60_exceptions.md R134 and R137: require(0) comes before require(1); the first unloaded register a command reads raises
its UNINIT, with exactly the effects of R134; a BAD word raises none even if it names an unloaded register. -/
def Obligations.FirstUnloadedRegisterRaisesUninit : Prop :=
  (∀ (i : Instr) (s : State), .x0 ∈ readsOf i → s.v0 = false → exec i s = .next (afterUninit s .uninit0))
    ∧ (∀ (i : Instr) (s : State), .x1 ∈ readsOf i → s.v1 = false → (.x0 ∈ readsOf i → s.v0 = true) →
        exec i s = .next (afterUninit s .uninit1))
    ∧ (∀ (s : State) (w : CmdWord) (rest : List HostInput) (r : BadReason), s.input = .command w :: rest →
        decode w = .bad r → ∃ t, step s = .next t ∧ t.rkind = .bad ∧ t.fault = s.fault ∧ t.fcause = s.fcause)

/-- 60_exceptions.md R136: a second fault while FAULT = 1 changes only RKIND, and commands after a fault execute normally:
exec does with FAULT set exactly what it does with FAULT clear, to everything but FAULT and FCAUSE; no command word clears
FAULT or changes FCAUSE, and reset does. -/
def Obligations.CommandsAfterAFaultRunAndKeepTheFirstCause : Prop :=
  (∀ (i : Instr) (s t : State), s.fault = true → exec i s = .next t → t.rkind = .fault →
      t = { s with rkind := .fault })
    ∧ (∀ (i : Instr) (s : State) (cause : FCause),
        ∃ t u, exec i { s with fault := true, fcause := cause } = .next t
          ∧ exec i { s with fault := false, fcause := .none } = .next u
          ∧ t = { u with fault := true, fcause := cause })
    ∧ (∀ (s t : State) (w : CmdWord) (rest : List HostInput), s.input = .command w :: rest → s.fault = true →
        step s = .next t → t.fault = true ∧ t.fcause = s.fcause)
    ∧ (∀ (s : State) (rest : List HostInput), s.input = .reset :: rest →
        ∃ t, step s = .next t ∧ t.fault = false ∧ t.fcause = .none)

/-! ## Which state a command reads and writes -/

/-- 10_state.md R26: a command writes no bitstring register but the one of its row, valid bit included, FLAG and CNT only
where its row says so, and RKIND always; and what it writes depends on no bitstring register but those its row reads, of the
counting rows on nothing but the counts. -/
def Obligations.CommandsReadAndWriteOnlyTheirRegisters : Prop :=
  (∀ (i : Instr) (s t : State), exec i s = .next t →
      (∀ d, writesOf i ≠ some d → t.x d = s.x d ∧ t.v d = s.v d)
        ∧ (i ∉ predicates → t.flag = s.flag) ∧ (i ≠ .popcnt → t.cnt = s.cnt)
        ∧ (t.rkind = kindOf i ∨ t.rkind = .fault))
    ∧ (∀ (i : Instr) (s u : State), (∀ d ∈ readsOf i, s.x d = u.x d ∧ s.v d = u.v d) →
        ∃ t t', exec i s = .next t ∧ exec i u = .next t' ∧ t.rkind = t'.rkind
          ∧ (t.rkind = .bool → t.flag = t'.flag)
          ∧ (t.rkind = .count → t.cnt = t'.cnt)
          ∧ (∀ d, writesOf i = some d → t.rkind ≠ .fault → t.x d = t'.x d ∧ t.v d = t'.v d))
    ∧ (∀ i ∈ [Instr.lt, .gt, .le, .ge, .eq, .ne, .popcnt], ∀ s u : State,
        (∀ d ∈ readsOf i, (s.x d).pcnt = (u.x d).pcnt ∧ s.v d = u.v d) →
        ∃ t t', exec i s = .next t ∧ exec i u = .next t' ∧ t.rkind = t'.rkind
          ∧ (t.rkind = .bool → t.flag = t'.flag)
          ∧ (t.rkind = .count → t.cnt = t'.cnt))

/-- 10_state.md R28: FLAG and CNT keep their values until a command of their kind writes them: FLAG only by a completing
LT, GT, LE, GE, EQ, NE, INCL or BEQ (R29), CNT only by a completing POPCNT. -/
def Obligations.FlagAndCntKeepTheirValues : Prop :=
  ∀ (s t : State) (w : CmdWord) (rest : List HostInput), s.input = .command w :: rest → step s = .next t →
    (t.flag ≠ s.flag → t.rkind = .bool ∧ ∃ i ∈ predicates, decode w = .command i)
      ∧ (t.cnt ≠ s.cnt → t.rkind = .count ∧ decode w = .command .popcnt)

/-! ## Ports -/

/-- The layout of the STATUS word (10_state.md R27, section 2): each field at its bits with its code, the reserved bits 0. -/
def Obligations.StatusWordHasTheSpecLayout : Prop :=
  ∀ s : State,
    (s.statusWord.extractLsb' 0 3).toNat =
        (match s.rkind with
          | .none => 0
          | .bits => 1
          | .bool => 2
          | .count => 3
          | .loaded => 4
          | .bad => 5
          | .fault => 6)
      ∧ s.statusWord.getLsbD 3 = s.flag
      ∧ s.statusWord.extractLsb' 4 7 = s.cnt
      ∧ s.statusWord.getLsbD 11 = s.fault
      ∧ (s.statusWord.extractLsb' 12 2).toNat =
        (match s.fcause with
          | .none => 0
          | .uninit0 => 1
          | .uninit1 => 2)
      ∧ s.statusWord.getLsbD 14 = s.v0
      ∧ s.statusWord.getLsbD 15 = s.v1
      ∧ s.statusWord.extractLsb' 16 16 = 0#16

/-- 10_state.md R33: between commands RD_X0 and RD_X1 return the register's value and count, RD_STATUS returns STATUS, all
without side effects on the block; while V[d] = 0 the model returns no value. -/
def Obligations.ReadPortsReturnStateWithoutSideEffects : Prop :=
  ∀ (s : State) (rest : List HostInput),
    (s.v0 = true → step { s with input := .read (.x .x0) :: rest } =
        .next { s with input := rest, observed := .x .x0 (some (s.x0.head ++ s.x0.tail, s.x0.pcnt)) :: s.observed })
      ∧ (s.v1 = true → step { s with input := .read (.x .x1) :: rest } =
        .next { s with input := rest, observed := .x .x1 (some (s.x1.head ++ s.x1.tail, s.x1.pcnt)) :: s.observed })
      ∧ (s.v0 = false → step { s with input := .read (.x .x0) :: rest } =
        .next { s with input := rest, observed := .x .x0 none :: s.observed })
      ∧ (s.v1 = false → step { s with input := .read (.x .x1) :: rest } =
        .next { s with input := rest, observed := .x .x1 none :: s.observed })
      ∧ step { s with input := .read .status :: rest } =
        .next { s with input := rest, observed := .status s.statusWord :: s.observed }

/-- 70_reset_and_hazards.md R157: a read made while a command is executing returns either the whole state before the command
or the whole state after it, and the command does what it does without the read. The statement holds for every value of the
free value, so it says nothing of which (log 7). -/
def Obligations.ReadDuringACommandSeesTheWholeOldOrNewState : Prop :=
  ∀ (s : State) (w : CmdWord) (p : ReadPort) (rest : List HostInput),
    ∃ t u answer, step { s with input := .command w :: rest } = .next t
      ∧ step { s with input := .commandWithReads w [p] :: rest } = .next u
      ∧ (answer = s.readPort p ∨ answer = t.readPort p)
      ∧ u = { t with observed := answer :: s.observed, midReads := u.midReads }

/-! ## Register loads -/

/-- 40_construction.md R72, LDW: the word, the effect on either register, nothing raised, everything else unchanged; the
zero value counts 0 and all ones counts 96. -/
def Obligations.LdwLoadsTheWordsVerbatim : Prop :=
  (∀ (h : Head) (t : Tail),
      (encode (.ldw .x0 h t)).toNat = h.toNat * 2 ^ 64 + t.toNat * 2 ^ 32 + 0x10
        ∧ (encode (.ldw .x1 h t)).toNat = h.toNat * 2 ^ 64 + t.toNat * 2 ^ 32 + 0x20 + 0x10
        ∧ ∀ d, decode (encode (.ldw d h t)) = .command (.ldw d h t))
    ∧ (∀ (s : State) (h : Head) (t : Tail),
        exec (.ldw .x0 h t) s = .next { s with x0 := content h t, v0 := true, rkind := .loaded }
          ∧ exec (.ldw .x1 h t) s = .next { s with x1 := content h t, v1 := true, rkind := .loaded })
    ∧ (content 0#64 0#32).pcnt = 0#7
    ∧ (content (BitVec.allOnes 64) (BitVec.allOnes 32)).pcnt = 96#7

/-- 40_construction.md R73, LDPZ: the word, the zero value with count 0 in either register, nothing raised, everything else
unchanged. -/
def Obligations.LdpzLoadsTheZeroValue : Prop :=
  HasWord (.ldpz .x0) 0x11#128 ∧ HasWord (.ldpz .x1) 0x31#128
    ∧ (∀ s : State,
        exec (.ldpz .x0) s =
            .next { s with x0 := { head := 0#64, tail := 0#32, pcnt := 0#7 }, v0 := true, rkind := .loaded }
          ∧ exec (.ldpz .x1) s =
            .next { s with x1 := { head := 0#64, tail := 0#32, pcnt := 0#7 }, v1 := true, rkind := .loaded })

/-- 40_construction.md R74, LDPC: the word; the register shifted left by one with 1 entering exactly for the code `ONE_CHAR` and
bit 95 dropped, everything else unchanged; UNINIT(d) of an unloaded register, whatever the other register is. -/
def Obligations.LdpcShiftsOneCharacterIn : Prop :=
  (∀ ch : CharCode,
      (encode (.ldpc .x0 ch)).toNat = ch.toNat * 2 ^ 8 + 0x12
        ∧ (encode (.ldpc .x1 ch)).toNat = ch.toNat * 2 ^ 8 + 0x20 + 0x12
        ∧ ∀ d, decode (encode (.ldpc d ch)) = .command (.ldpc d ch))
    ∧ (∀ (s : State) (ch : CharCode), s.v0 = true →
        exec (.ldpc .x0 ch) s =
          .next { s with
            x0 := contentOf (shl96 (s.x0.head ++ s.x0.tail) 1 ||| if ch = Config.oneChar then 1#96 else 0#96)
            rkind := .loaded })
    ∧ (∀ (s : State) (ch : CharCode), s.v1 = true →
        exec (.ldpc .x1 ch) s =
          .next { s with
            x1 := contentOf (shl96 (s.x1.head ++ s.x1.tail) 1 ||| if ch = Config.oneChar then 1#96 else 0#96)
            rkind := .loaded })
    ∧ (∀ (s : State) (ch : CharCode), s.v0 = false → exec (.ldpc .x0 ch) s = .next (afterUninit s .uninit0))
    ∧ (∀ (s : State) (ch : CharCode), s.v1 = false → exec (.ldpc .x1 ch) s = .next (afterUninit s .uninit1))

/-- 40_construction.md R71: bit i of `fromBitPattern(text)` is 1 exactly when i < L and the i-th character from the right is
`1`; its count is exact. -/
def Obligations.FromBitPatternReadsRightToLeft : Prop :=
  ∀ text : List CharCode,
    (∀ i < 96, (fromBitPattern text).val.getLsbD i = true ↔
        i < text.length ∧ text[text.length - 1 - i]? = some Config.oneChar)
      ∧ fromBitPattern text = contentOf (fromBitPattern text).val

/-- 40_construction.md R75: LDPZ d and one LDPC d per character leave X[d] = fromBitPattern(text) and raise no exception,
from any state, and change nothing else but RKIND. -/
def Obligations.PatternLoadEqualsFromBitPattern : Prop :=
  ∀ (s : State) (d : Reg) (text : List CharCode) (rest : List HostInput),
    ∃ t : State, core.run (text.length + 1) { s with input := issue (ldp d text) ++ rest } = .next t
      ∧ t = { s.writeX d (fromBitPattern text) with rkind := .loaded, input := rest }

/-- 40_construction.md R77: a text of more than 96 characters keeps only its last 96; a shorter one leaves the upper bits 0;
characters that are not `1` are all alike, and a text of only such characters gives the zero value. -/
def Obligations.PatternCornerCases : Prop :=
  (∀ front back : List CharCode, back.length = 96 → fromBitPattern (front ++ back) = fromBitPattern back)
    ∧ (∀ (text : List CharCode) (i : Nat), text.length ≤ i → (fromBitPattern text).val.getLsbD i = false)
    ∧ (∀ (front back : List CharCode) (a b : CharCode), a ≠ Config.oneChar → b ≠ Config.oneChar →
        fromBitPattern (front ++ a :: back) = fromBitPattern (front ++ b :: back))
    ∧ (∀ text : List CharCode, (∀ c ∈ text, c ≠ Config.oneChar) →
        fromBitPattern text = { head := 0#64, tail := 0#32, pcnt := 0#7 })

/-! ## Bitwise ALU -/

/-- 41_bitwise.md R80, AND: the word, the result and its frame, UNINIT(0) then UNINIT(1), and the corner cases (an unchanged
X[0] needs its count to be exact, as R21 says it is). -/
def Obligations.AndIsLaneWiseAnd : Prop :=
  HasWord .and 0x01#128
    ∧ WritesBits .and (fun a b => a &&& b) (fun a b => a &&& b)
    ∧ RaisesUninit0 .and ∧ RaisesUninit1 .and
    ∧ (∀ (s : State) (a b : BitString), a.countExact →
        (b.head = 0#64 ∧ b.tail = 0#32 → LeavesX0 .and (operands s a b) { head := 0#64, tail := 0#32, pcnt := 0#7 })
          ∧ (b.head = BitVec.allOnes 64 ∧ b.tail = BitVec.allOnes 32 → LeavesX0 .and (operands s a b) a)
          ∧ LeavesX0 .and (operands s a a) a)

/-- 41_bitwise.md R81, OR: the word, the result and its frame, UNINIT(0) then UNINIT(1), and the corner cases. -/
def Obligations.OrIsLaneWiseOr : Prop :=
  HasWord .or 0x02#128
    ∧ WritesBits .or (fun a b => a ||| b) (fun a b => a ||| b)
    ∧ RaisesUninit0 .or ∧ RaisesUninit1 .or
    ∧ (∀ (s : State) (a b : BitString), a.countExact →
        (b.head = 0#64 ∧ b.tail = 0#32 → LeavesX0 .or (operands s a b) a)
          ∧ (b.head = BitVec.allOnes 64 ∧ b.tail = BitVec.allOnes 32 →
              LeavesX0 .or (operands s a b)
                { head := BitVec.allOnes 64, tail := BitVec.allOnes 32, pcnt := 96#7 })
          ∧ LeavesX0 .or (operands s a a) a)

/-- 41_bitwise.md R82, XOR: the word, the result and its frame, UNINIT(0) then UNINIT(1), and the corner cases. -/
def Obligations.XorIsLaneWiseXor : Prop :=
  HasWord .xor 0x03#128
    ∧ WritesBits .xor (fun a b => a ^^^ b) (fun a b => a ^^^ b)
    ∧ RaisesUninit0 .xor ∧ RaisesUninit1 .xor
    ∧ (∀ (s : State) (a b : BitString), a.countExact →
        (b.head = a.head ∧ b.tail = a.tail →
            LeavesX0 .xor (operands s a b) { head := 0#64, tail := 0#32, pcnt := 0#7 })
          ∧ (b.head = 0#64 ∧ b.tail = 0#32 → LeavesX0 .xor (operands s a b) a)
          ∧ (b.head = BitVec.allOnes 64 ∧ b.tail = BitVec.allOnes 32 →
              LeavesX0 .xor (operands s a b) (content (~~~a.head) (~~~a.tail))))

/-- 41_bitwise.md R83, NOT: the word, the result and its frame whatever X[1] and V[1] are, UNINIT(0), and the corner cases:
zero gives all ones, twice is the identity, and the new count is 96 minus the old (the spec's own inference from R21). -/
def Obligations.NotComplementsBothWords : Prop :=
  HasWord .not 0x04#128
    ∧ (∀ s : State, s.v0 = true →
        exec .not s = .next { s with x0 := content (~~~s.x0.head) (~~~s.x0.tail), rkind := .bits })
    ∧ RaisesUninit0 .not
    ∧ (∀ s : State, s.v0 = true → s.x0.head = 0#64 → s.x0.tail = 0#32 →
        LeavesX0 .not s { head := BitVec.allOnes 64, tail := BitVec.allOnes 32, pcnt := 96#7 })
    ∧ (∀ s : State, s.v0 = true → s.x0.countExact →
        ∃ t u, exec .not s = .next t ∧ exec .not t = .next u ∧ u.x0 = s.x0
          ∧ t.x0.pcnt.toNat = 96 - s.x0.pcnt.toNat)

/-- 41_bitwise.md R84, laws under bit-pattern equality: De Morgan both ways, XOR of equal operands, NOT twice,
commutativity, associativity, and that bit i of a result depends only on bit i of the operands. -/
def Obligations.BitwiseLawsHoldOfTheCommands : Prop :=
  ∀ (s : State) (a b : BitString),
    (∃ t u, exec .and (operands s a b) = .next t ∧ exec .not t = .next u
        ∧ u.x0 = content (~~~a.head ||| ~~~b.head) (~~~a.tail ||| ~~~b.tail))
      ∧ (∃ t u, exec .or (operands s a b) = .next t ∧ exec .not t = .next u
        ∧ u.x0 = content (~~~a.head &&& ~~~b.head) (~~~a.tail &&& ~~~b.tail))
      ∧ LeavesX0 .xor (operands s a a) { head := 0#64, tail := 0#32, pcnt := 0#7 }
      ∧ (∃ t u, exec .not (operands s a b) = .next t ∧ exec .not t = .next u ∧ u.x0.val = a.val)
      ∧ (∀ i ∈ [Instr.and, .or, .xor], ∃ t u, exec i (operands s a b) = .next t ∧ exec i (operands s b a) = .next u
        ∧ t.x0 = u.x0)
      ∧ (∀ i ∈ [Instr.and, .or, .xor], ∀ c : BitString, ∃ t t' u u',
          exec i (operands s a b) = .next t ∧ exec i (operands s t.x0 c) = .next t'
            ∧ exec i (operands s b c) = .next u ∧ exec i (operands s a u.x0) = .next u' ∧ t'.x0 = u'.x0)
      ∧ (∀ i ∈ [Instr.and, .or, .xor, .not], ∀ (a' b' : BitString) (k : Nat),
          a.val.getLsbD k = a'.val.getLsbD k → b.val.getLsbD k = b'.val.getLsbD k →
          ∃ t u, exec i (operands s a b) = .next t ∧ exec i (operands s a' b') = .next u
            ∧ t.x0.val.getLsbD k = u.x0.val.getLsbD k)

/-! ## Shifter -/

/-- 42_shift.md R90, SHL: the word for every amount of 32 bits, the product modulo 2^96 and its frame whatever X[1] is, no
shift amount that faults, UNINIT(0), and the corner cases N = 0, 32, 64, 95, 96 and more. The rule is every N below 2^32; that
exec does the same for an N of 2^32 or more, which no word carries, is the model's choice (log 12). -/
def Obligations.ShlShiftsLeftAcrossTheWords : Prop :=
  (∀ n < 2 ^ 32, (encode (.shl n)).toNat = n * 2 ^ 32 + 0x05 ∧ decode (encode (.shl n)) = .command (.shl n))
    ∧ (∀ (s : State) (n : Nat), s.v0 = true →
        exec (.shl n) s = .next { s with x0 := contentOf (shl96 (s.x0.head ++ s.x0.tail) n), rkind := .bits })
    ∧ (∀ n, RaisesUninit0 (.shl n))
    ∧ (∀ s : State, s.v0 = true →
        (s.x0.countExact → LeavesX0 (.shl 0) s s.x0)
          ∧ LeavesX0 (.shl 32) s (content (s.x0.head.extractLsb' 0 32 ++ s.x0.tail) 0#32)
          ∧ LeavesX0 (.shl 64) s (content (s.x0.tail ++ 0#32) 0#32)
          ∧ LeavesX0 (.shl 95) s (content (if s.x0.tail.getLsbD 0 then 0x8000000000000000#64 else 0#64) 0#32)
          ∧ (∀ n, 96 ≤ n → LeavesX0 (.shl n) s { head := 0#64, tail := 0#32, pcnt := 0#7 })
          ∧ (∀ n < 96, ∃ t, exec (.shl n) s = .next t ∧ ∀ i < n, t.x0.val.getLsbD i = false))

/-- 42_shift.md R91, SHR: the word for every amount of 32 bits, the quotient by 2^N and its frame whatever X[1] is, no shift
amount that faults, UNINIT(0), and the corner cases; the vacated high bits are 0. The rule is every N below 2^32; that exec
does the same for an N of 2^32 or more, which no word carries, is the model's choice (log 12). -/
def Obligations.ShrShiftsRightAcrossTheWords : Prop :=
  (∀ n < 2 ^ 32, (encode (.shr n)).toNat = n * 2 ^ 32 + 0x06 ∧ decode (encode (.shr n)) = .command (.shr n))
    ∧ (∀ (s : State) (n : Nat), s.v0 = true →
        exec (.shr n) s = .next { s with x0 := contentOf (shr96 (s.x0.head ++ s.x0.tail) n), rkind := .bits })
    ∧ (∀ n, RaisesUninit0 (.shr n))
    ∧ (∀ s : State, s.v0 = true →
        (s.x0.countExact → LeavesX0 (.shr 0) s s.x0)
          ∧ LeavesX0 (.shr 32) s
              (content ((s.x0.head.extractLsb' 32 32).setWidth 64) (s.x0.head.extractLsb' 0 32))
          ∧ LeavesX0 (.shr 64) s (content 0#64 (s.x0.head.extractLsb' 32 32))
          ∧ LeavesX0 (.shr 95) s (content 0#64 (if s.x0.head.getLsbD 63 then 1#32 else 0#32))
          ∧ (∀ n, 96 ≤ n → LeavesX0 (.shr n) s { head := 0#64, tail := 0#32, pcnt := 0#7 })
          ∧ (∀ n < 96, ∃ t, exec (.shr n) s = .next t ∧ ∀ i, 96 - n ≤ i → t.x0.val.getLsbD i = false))

/-- 42_shift.md R92: the two-word left shift writes what SHL writes (an amount of 2^32 or more is log 12). -/
def Obligations.TwoWordLeftShiftRefinesShl : Prop :=
  ∀ (s : State) (n : Nat), s.v0 = true →
    LeavesX0 (.shl n) s (content (shlWords s.x0.head s.x0.tail n).1 (shlWords s.x0.head s.x0.tail n).2)

/-- 42_shift.md R93: the two-word right shift writes what SHR writes (an amount of 2^32 or more is log 12). -/
def Obligations.TwoWordRightShiftRefinesShr : Prop :=
  ∀ (s : State) (n : Nat), s.v0 = true →
    LeavesX0 (.shr n) s (content (shrWords s.x0.head s.x0.tail n).1 (shrWords s.x0.head s.x0.tail n).2)

/-- 42_shift.md R95, laws of the shifter: two shifts one way are one shift by the sum; a shift right and back clears the low
bits, a shift left and back the high bits; and the count never rises, staying equal exactly when no set bit is shifted out
(an amount, or a sum of amounts, of 2^32 or more is log 12). -/
def Obligations.ShifterLawsHoldOfTheCommands : Prop :=
  ∀ (s : State) (m n : Nat), s.v0 = true →
    (∃ t u v, exec (.shl m) s = .next t ∧ exec (.shl n) t = .next u ∧ exec (.shl (m + n)) s = .next v ∧ u.x0 = v.x0)
      ∧ (∃ t u v, exec (.shr m) s = .next t ∧ exec (.shr n) t = .next u ∧ exec (.shr (m + n)) s = .next v
        ∧ u.x0 = v.x0)
      ∧ (∃ t u, exec (.shr n) s = .next t ∧ exec (.shl n) t = .next u
        ∧ ∀ i < 96, u.x0.val.getLsbD i = (decide (n ≤ i) && s.x0.val.getLsbD i))
      ∧ (∃ t u, exec (.shl n) s = .next t ∧ exec (.shr n) t = .next u
        ∧ ∀ i < 96, u.x0.val.getLsbD i = (decide (i + n < 96) && s.x0.val.getLsbD i))
      ∧ (s.x0.countExact →
        ∃ t u, exec (.shl n) s = .next t ∧ exec (.shr n) s = .next u
          ∧ t.x0.pcnt.toNat ≤ s.x0.pcnt.toNat ∧ u.x0.pcnt.toNat ≤ s.x0.pcnt.toNat
          ∧ (t.x0.pcnt = s.x0.pcnt ↔ ∀ i < 96, 96 ≤ i + n → s.x0.val.getLsbD i = false)
          ∧ (u.x0.pcnt = s.x0.pcnt ↔ ∀ i < 96, i < n → s.x0.val.getLsbD i = false))

/-- A shift by 2^32 or more is the shift by 4294967295 that the host issues instead (30_encoding.md R68, the spec's own
inference). No command word carries such an amount: that exec gives it the rule's meaning too is the model's choice (log 12),
and every instance of this statement rests on it. -/
def Obligations.SaturatedShiftLosesNothing : Prop :=
  ∀ (s : State) (n : Nat), 2 ^ 32 ≤ n →
    saturateShift n = 4294967295
      ∧ exec (.shl n) s = exec (.shl 4294967295) s ∧ exec (.shr n) s = exec (.shr 4294967295) s

/-! ## Population count -/

/-- 43_popcount.md R100, POPCNT: the word; CNT gets the cached count, which is the exact number of set bits and at most 96
(R21), everything else is unchanged whatever X[1] is; UNINIT(0); and running it twice gives the same result. -/
def Obligations.PopcntWritesTheCachedCount : Prop :=
  HasWord .popcnt 0x07#128
    ∧ (∀ s : State, s.v0 = true → exec .popcnt s = .next { s with cnt := s.x0.pcnt, rkind := .count })
    ∧ RaisesUninit0 .popcnt
    ∧ (∀ s : State, s.v0 = true → s.x0.countExact →
        ∃ t, exec .popcnt s = .next t ∧ t.cnt.toNat = bitSum (s.x0.head ++ s.x0.tail) ∧ t.cnt.toNat ≤ 96
          ∧ exec .popcnt t = .next t)

/-- 43_popcount.md R103, laws of the count, for every x and y. -/
def Obligations.PopcountLaws : Prop :=
  (∀ h : Head, ∀ t : Tail, (mk h t).pcnt.toNat = bitSum h + bitSum t)
    ∧ (∀ a : BitString, a.countExact → (mk (~~~a.head) (~~~a.tail)).pcnt.toNat = 96 - a.pcnt.toNat)
    ∧ (∀ a b : BitString, a.countExact → b.countExact →
        (mk (a.head &&& b.head) (a.tail &&& b.tail)).pcnt.toNat + (mk (a.head ||| b.head) (a.tail ||| b.tail)).pcnt.toNat
            = a.pcnt.toNat + b.pcnt.toNat
          ∧ (mk (a.head ^^^ b.head) (a.tail ^^^ b.tail)).pcnt.toNat
              + 2 * (mk (a.head &&& b.head) (a.tail &&& b.tail)).pcnt.toNat
            = a.pcnt.toNat + b.pcnt.toNat)
    ∧ (∀ a : BitString, a.countExact →
        (a.pcnt = 0#7 ↔ a.head = 0#64 ∧ a.tail = 0#32)
          ∧ (a.pcnt = 96#7 ↔ a.head = BitVec.allOnes 64 ∧ a.tail = BitVec.allOnes 32))

/-! ## Ordering, equality and inclusion -/

/-- 44_ordering.md R110, LT: the word, FLAG and its frame, UNINIT(0) then UNINIT(1); equal counts give false. -/
def Obligations.LtComparesCounts : Prop :=
  HasWord .lt 0x08#128
    ∧ WritesFlag .lt (fun a b => decide (a.pcnt.toNat < b.pcnt.toNat))
    ∧ RaisesUninit0 .lt ∧ RaisesUninit1 .lt
    ∧ (∀ (s : State) (a b : BitString), a.pcnt = b.pcnt → LeavesFlag .lt (operands s a b) false)

/-- 44_ordering.md R111, GT: the word, FLAG and its frame, UNINIT(0) then UNINIT(1); equal counts give false, and GT is LT
with the operands exchanged. -/
def Obligations.GtComparesCounts : Prop :=
  HasWord .gt 0x09#128
    ∧ WritesFlag .gt (fun a b => decide (a.pcnt.toNat > b.pcnt.toNat))
    ∧ RaisesUninit0 .gt ∧ RaisesUninit1 .gt
    ∧ (∀ (s : State) (a b : BitString), a.pcnt = b.pcnt → LeavesFlag .gt (operands s a b) false)
    ∧ (∀ (s : State) (a b : BitString) (f : Bool),
        LeavesFlag .gt (operands s a b) f ↔ LeavesFlag .lt (operands s b a) f)

/-- 44_ordering.md R112, LE: the word, FLAG and its frame, UNINIT(0) then UNINIT(1); equal counts give true, and LE is
exactly not GT. -/
def Obligations.LeComparesCounts : Prop :=
  HasWord .le 0x0a#128
    ∧ WritesFlag .le (fun a b => decide (a.pcnt.toNat ≤ b.pcnt.toNat))
    ∧ RaisesUninit0 .le ∧ RaisesUninit1 .le
    ∧ (∀ (s : State) (a b : BitString), a.pcnt = b.pcnt → LeavesFlag .le (operands s a b) true)
    ∧ (∀ (s : State) (a b : BitString) (f : Bool),
        LeavesFlag .le (operands s a b) f ↔ LeavesFlag .gt (operands s a b) (!f))

/-- 44_ordering.md R113, GE: the word, FLAG and its frame, UNINIT(0) then UNINIT(1); equal counts give true, and GE is
exactly not LT. -/
def Obligations.GeComparesCounts : Prop :=
  HasWord .ge 0x0b#128
    ∧ WritesFlag .ge (fun a b => decide (a.pcnt.toNat ≥ b.pcnt.toNat))
    ∧ RaisesUninit0 .ge ∧ RaisesUninit1 .ge
    ∧ (∀ (s : State) (a b : BitString), a.pcnt = b.pcnt → LeavesFlag .ge (operands s a b) true)
    ∧ (∀ (s : State) (a b : BitString) (f : Bool),
        LeavesFlag .ge (operands s a b) f ↔ LeavesFlag .lt (operands s a b) (!f))

/-- 44_ordering.md R114, EQ: the word, FLAG and its frame, UNINIT(0) then UNINIT(1); different patterns of equal counts
compare equal. -/
def Obligations.EqComparesCounts : Prop :=
  HasWord .eq 0x0c#128
    ∧ WritesFlag .eq (fun a b => decide (a.pcnt = b.pcnt))
    ∧ RaisesUninit0 .eq ∧ RaisesUninit1 .eq
    ∧ (∀ s : State, LeavesFlag .eq (operands s (content 0#64 0b1#32) (content 0#64 0b10#32)) true)

/-- 44_ordering.md R115, NE: the word, FLAG and its frame, UNINIT(0) then UNINIT(1); NE is exactly not EQ. -/
def Obligations.NeComparesCounts : Prop :=
  HasWord .ne 0x0d#128
    ∧ WritesFlag .ne (fun a b => decide (a.pcnt ≠ b.pcnt))
    ∧ RaisesUninit0 .ne ∧ RaisesUninit1 .ne
    ∧ (∀ (s : State) (a b : BitString) (f : Bool),
        LeavesFlag .ne (operands s a b) f ↔ LeavesFlag .eq (operands s a b) (!f))

/-- 44_ordering.md R116, BEQ: the word, FLAG and its frame, UNINIT(0) then UNINIT(1); BEQ true implies EQ true for exact
counts (R21), but not the reverse. -/
def Obligations.BeqComparesBitPatterns : Prop :=
  HasWord .beq 0x0f#128
    ∧ WritesFlag .beq (fun a b => decide (a.head = b.head ∧ a.tail = b.tail))
    ∧ RaisesUninit0 .beq ∧ RaisesUninit1 .beq
    ∧ (∀ (s : State) (a b : BitString), a.countExact → b.countExact →
        LeavesFlag .beq (operands s a b) true → LeavesFlag .eq (operands s a b) true)
    ∧ (∀ s : State, LeavesFlag .beq (operands s (content 0#64 0b1100#32) (content 0#64 0b0011#32)) false
        ∧ LeavesFlag .eq (operands s (content 0#64 0b1100#32) (content 0#64 0b0011#32)) true)

/-- 44_ordering.md R117, laws of the ordering: exactly one of LT, EQ and GT is true; LE is LT or EQ; GE is GT or EQ; NE is
not EQ; and the order is transitive. -/
def Obligations.OrderingLawsHoldOfTheCommands : Prop :=
  (∀ (s : State) (a b : BitString),
      ∃ lt eq gt le ge ne : Bool,
        LeavesFlag .lt (operands s a b) lt ∧ LeavesFlag .eq (operands s a b) eq ∧ LeavesFlag .gt (operands s a b) gt
          ∧ LeavesFlag .le (operands s a b) le ∧ LeavesFlag .ge (operands s a b) ge
          ∧ LeavesFlag .ne (operands s a b) ne
          ∧ lt.toNat + eq.toNat + gt.toNat = 1 ∧ le = (lt || eq) ∧ ge = (gt || eq) ∧ ne = !eq)
    ∧ (∀ (s : State) (a b c : BitString), LeavesFlag .le (operands s a b) true → LeavesFlag .le (operands s b c) true →
        LeavesFlag .le (operands s a c) true)

/-- 45_inclusion.md R120, INCL: the word, FLAG and its frame, UNINIT(0) then UNINIT(1), and the corner cases: every value
includes zero and itself, only all ones includes all ones, and zero includes only zero. -/
def Obligations.InclTestsSubsetInclusion : Prop :=
  HasWord .incl 0x0e#128
    ∧ WritesFlag .incl (fun a b => decide (a.head &&& b.head = b.head ∧ a.tail &&& b.tail = b.tail))
    ∧ RaisesUninit0 .incl ∧ RaisesUninit1 .incl
    ∧ (∀ (s : State) (a b : BitString),
        (b.head = 0#64 ∧ b.tail = 0#32 → LeavesFlag .incl (operands s a b) true)
          ∧ LeavesFlag .incl (operands s a a) true
          ∧ (b.head = BitVec.allOnes 64 ∧ b.tail = BitVec.allOnes 32 →
              (LeavesFlag .incl (operands s a b) true ↔ a.head = BitVec.allOnes 64 ∧ a.tail = BitVec.allOnes 32))
          ∧ (a.head = 0#64 ∧ a.tail = 0#32 →
              (LeavesFlag .incl (operands s a b) true ↔ b.head = 0#64 ∧ b.tail = 0#32)))

/-- 45_inclusion.md R121, laws of inclusion: the bitwise reading, antisymmetry, transitivity, that inclusion implies GE for
exact counts (R21), and that x includes x & y and x | y includes x. -/
def Obligations.InclusionLawsHoldOfTheCommand : Prop :=
  (∀ (s : State) (a b : BitString),
      (LeavesFlag .incl (operands s a b) true ↔ ∀ i < 96, b.val.getLsbD i = true → a.val.getLsbD i = true)
        ∧ (LeavesFlag .incl (operands s a b) true ↔ b.val &&& ~~~a.val = 0#96)
        ∧ (LeavesFlag .incl (operands s a b) true ↔ a.val ||| b.val = a.val)
        ∧ (LeavesFlag .incl (operands s a b) true → LeavesFlag .incl (operands s b a) true → a.val = b.val)
        ∧ (a.countExact → b.countExact → LeavesFlag .incl (operands s a b) true →
            LeavesFlag .ge (operands s a b) true)
        ∧ LeavesFlag .incl (operands s a (mk (a.head &&& b.head) (a.tail &&& b.tail))) true
        ∧ LeavesFlag .incl (operands s (mk (a.head ||| b.head) (a.tail ||| b.tail)) a) true)
    ∧ (∀ (s : State) (a b c : BitString), LeavesFlag .incl (operands s a b) true →
        LeavesFlag .incl (operands s b c) true → LeavesFlag .incl (operands s a c) true)

/-! ## The host's side -/

/-- 46_readout.md R125: the rendering is exactly 96 characters, the j-th from the left is `1` exactly when bit 95 - j is 1,
and only the characters `0` and `1` occur. -/
def Obligations.RenderIsTheCanonicalText : Prop :=
  ∀ v : Value, (render v).length = 96
    ∧ ∀ j < 96, (render v)[j]? = some (if v.getLsbD (95 - j) then '1' else '0')

/-- 46_readout.md R126: reading the rendering of a value back as a pattern gives the value, and on the block
`ldp x1, render(RD_X0)` followed by `beq` sets FLAG = 1. That the character `1` has the code `ONE_CHAR` is log 14. -/
def Obligations.RenderedValueLoadsBackEqual : Prop :=
  (∀ v : Value, ∃ text, textCodes (render v) = some text ∧ (fromBitPattern text).val = v)
    ∧ (∀ (s : State) (text : List CharCode) (rest : List HostInput), s.v0 = true →
        textCodes (render s.x0.val) = some text →
        ∃ t : State,
          core.run 98 { s with input := issue (ldp .x1 text ++ [.beq]) ++ rest } = .next t
            ∧ t.flag = true ∧ t.rkind = .bool ∧ t.x0 = s.x0 ∧ t.fault = s.fault)

/-- 30_encoding.md R67 with 46_readout.md R127: from any state, the commands of a test line leave the block so that the host
reports what the operator means for the two patterns: the canonical string, a boolean literal, a decimal count, or
`Bad input!` for any other token, and then a blank line. That a count is printed in decimal is general knowledge (log 15),
the characters' codes are those of log 14, and the character that ends a line is the model's choice (log 21). -/
def Obligations.TestLineReportsTheOperatorsResult : Prop :=
  ∀ (s : State) (operand1 operand2 : List Char) (text1 text2 : List CharCode),
    textCodes operand1 = some text1 → textCodes operand2 = some text2 →
    (∀ token ∈ binaryTokens,
        ∃ ws, testLine operand1 token (some operand2) = some ws
          ∧ RunsAndReports s ws (binaryLine token (fromBitPattern text1).val (fromBitPattern text2).val))
      ∧ (∀ n, decimalNumber operand2 = some n →
          (∃ ws, testLine operand1 "<<".toList (some operand2) = some ws
              ∧ RunsAndReports s ws (render (shl96 (fromBitPattern text1).val n)))
            ∧ ∃ ws, testLine operand1 ">>".toList (some operand2) = some ws
              ∧ RunsAndReports s ws (render (shr96 (fromBitPattern text1).val n)))
      ∧ (∀ second : Option (List Char),
          (∃ ws, testLine operand1 "~".toList second = some ws
              ∧ RunsAndReports s ws (render (~~~(fromBitPattern text1).val)))
            ∧ (∃ ws, testLine operand1 "set_bits".toList second = some ws
              ∧ RunsAndReports s ws (Nat.toDigits 10 (bitSum (fromBitPattern text1).val)))
            ∧ ∀ token, token ∉ knownTokens →
              ∃ ws, testLine operand1 token second = some ws ∧ RunsAndReports s ws "Bad input!".toList)

/-- 70_reset_and_hazards.md R153: a host that loads each register with LDW or LDPZ before a command that reads it never
raises UNINIT: all its commands run, and FAULT and FCAUSE stay as they were. -/
def Obligations.KeepingTheLoadOrderNeverFaults : Prop :=
  ∀ (s : State) (is : List Instr) (rest : List HostInput), (∀ i ∈ is, i.wf = true) →
    keepsLoadOrder s.v0 s.v1 is = true →
    ∃ t : State, core.run is.length { s with input := issue is ++ rest } = .next t
      ∧ t.input = rest ∧ t.fault = s.fault ∧ t.fcause = s.fcause
end

