-- ==== Sys2Proof/Laws/Decode.lean ====
section
/-! SUPPORT. The fields of a packed command word (30_encoding.md R51). -/

namespace Sys2Proof

variable (op : BitVec 5) (d : BitVec 1) (ch : CharCode) (imm32 : Tail) (imm64 : Head)

/-- Bit i of a packed word, field by field (30_encoding.md R51). -/
theorem getLsbD_packWord (i : Nat) :
    (packWord op d ch imm32 imm64).getLsbD i =
      if i < 5 then op.getLsbD i
      else if i < 6 then d.getLsbD (i - 5)
      else if i < 8 then false
      else if i < 16 then ch.getLsbD (i - 8)
      else if i < 32 then false
      else if i < 64 then imm32.getLsbD (i - 32)
      else imm64.getLsbD (i - 64) := by
  unfold packWord
  simp only [BitVec.getLsbD_append]
  by_cases h5 : i < 5
  · simp [h5]
  by_cases h6 : i < 6
  · simp [h5, show i - 5 < 1 by omega, h6]
  by_cases h8 : i < 8
  · simp [h5, show ¬ i - 5 < 1 by omega, h6, h8, show i - 5 - 1 < 2 by omega]
  by_cases h16 : i < 16
  · simp [h5, show ¬ i - 5 < 1 by omega, h6, h8, show ¬ i - 5 - 1 < 2 by omega, h16, show i - 5 - 1 - 2 = i - 8 by omega,
      show i - 8 < 8 by omega]
  by_cases h32 : i < 32
  · simp [h5, show ¬ i - 5 < 1 by omega, h6, h8, show ¬ i - 5 - 1 < 2 by omega, h16, show ¬ i - 5 - 1 - 2 < 8 by omega, h32,
      show i - 5 - 1 - 2 - 8 < 16 by omega]
  by_cases h64 : i < 64
  · simp [h5, show ¬ i - 5 < 1 by omega, h6, h8, show ¬ i - 5 - 1 < 2 by omega, h16, show ¬ i - 5 - 1 - 2 < 8 by omega, h32,
      show ¬ i - 5 - 1 - 2 - 8 < 16 by omega, h64, show i - 5 - 1 - 2 - 8 - 16 = i - 32 by omega,
      show i - 32 < 32 by omega]
  · simp [h5, show ¬ i - 5 < 1 by omega, h6, h8, show ¬ i - 5 - 1 < 2 by omega, h16, show ¬ i - 5 - 1 - 2 < 8 by omega, h32,
      show ¬ i - 5 - 1 - 2 - 8 < 16 by omega, h64, show ¬ i - 5 - 1 - 2 - 8 - 16 < 32 by omega,
      show i - 5 - 1 - 2 - 8 - 16 - 32 = i - 64 by omega]

@[simp] theorem fieldOp_packWord : fieldOp (packWord op d ch imm32 imm64) = op := by
  ext i hi
  simp [fieldOp, ← BitVec.getLsbD_eq_getElem, BitVec.getLsbD_extractLsb', getLsbD_packWord, hi]

@[simp] theorem fieldD_packWord : fieldD (packWord op d ch imm32 imm64) = d := by
  ext i hi
  simp [fieldD, ← BitVec.getLsbD_eq_getElem, BitVec.getLsbD_extractLsb', getLsbD_packWord, show i = 0 by omega]

@[simp] theorem fieldCh_packWord : fieldCh (packWord op d ch imm32 imm64) = ch := by
  ext i hi
  simp [fieldCh, ← BitVec.getLsbD_eq_getElem, BitVec.getLsbD_extractLsb', getLsbD_packWord, hi,
    show ¬ 8 + i < 5 by omega, show ¬ 8 + i < 6 by omega, show 8 + i < 16 by omega]

@[simp] theorem fieldImm32_packWord : fieldImm32 (packWord op d ch imm32 imm64) = imm32 := by
  ext i hi
  simp [fieldImm32, ← BitVec.getLsbD_eq_getElem, BitVec.getLsbD_extractLsb', getLsbD_packWord, hi,
    show ¬ 32 + i < 5 by omega, show ¬ 32 + i < 6 by omega, show ¬ 32 + i < 8 by omega, show ¬ 32 + i < 16 by omega,
    show 32 + i < 64 by omega]

@[simp] theorem fieldImm64_packWord : fieldImm64 (packWord op d ch imm32 imm64) = imm64 := by
  ext i hi
  simp [fieldImm64, ← BitVec.getLsbD_eq_getElem, BitVec.getLsbD_extractLsb', getLsbD_packWord, hi,
    show ¬ 64 + i < 5 by omega, show ¬ 64 + i < 6 by omega, show ¬ 64 + i < 8 by omega, show ¬ 64 + i < 16 by omega,
    show ¬ 64 + i < 32 by omega]

theorem getLsbD_and_not {n : Nat} (a b : BitVec n) (i : Nat) :
    (a &&& ~~~b).getLsbD i = (a.getLsbD i && !b.getLsbD i) := by
  by_cases h : i < n
  · simp [h]
  · simp [BitVec.getLsbD_of_ge a i (by omega)]

/-- Masking a packed word by the complement of another masks it field by field. -/
theorem packWord_and_not (op' : BitVec 5) (d' : BitVec 1) (ch' : CharCode) (imm32' : Tail) (imm64' : Head) :
    packWord op d ch imm32 imm64 &&& ~~~ packWord op' d' ch' imm32' imm64' =
      packWord (op &&& ~~~op') (d &&& ~~~d') (ch &&& ~~~ch') (imm32 &&& ~~~imm32') (imm64 &&& ~~~imm64') := by
  ext i hi
  simp only [← BitVec.getLsbD_eq_getElem, getLsbD_and_not, getLsbD_packWord]
  split_ifs <;> rfl

/-- The live fields of a format as a packed word. -/
theorem liveMask_eq (f : Format) :
    liveMask f = match f with
      | .r => packWord (BitVec.allOnes 5) 0#1 0#8 0#32 0#64
      | .s => packWord (BitVec.allOnes 5) 0#1 0#8 (BitVec.allOnes 32) 0#64
      | .w => packWord (BitVec.allOnes 5) 1#1 0#8 (BitVec.allOnes 32) (BitVec.allOnes 64)
      | .z => packWord (BitVec.allOnes 5) 1#1 0#8 0#32 0#64
      | .c => packWord (BitVec.allOnes 5) 1#1 (BitVec.allOnes 8) 0#32 0#64 := by
  cases f <;> decide

theorem packWord_zero : packWord 0#5 0#1 0#8 0#32 0#64 = 0#128 := by decide

/-- A packed word selects by the fields it was packed from. -/
@[simp] theorem selectCommand_packWord :
    selectCommand (packWord op d ch imm32 imm64) = commandOf op d ch imm32 imm64 := by
  unfold selectCommand
  rw [fieldOp_packWord, fieldD_packWord, fieldCh_packWord, fieldImm32_packWord, fieldImm64_packWord]

/-- A word with nothing in RSV_A and RSV_B is packed from its own fields. -/
theorem packWord_fields {w : CmdWord} (hA : w.extractLsb' 6 2 = 0#2) (hB : w.extractLsb' 16 16 = 0#16) :
    packWord (fieldOp w) (fieldD w) (fieldCh w) (fieldImm32 w) (fieldImm64 w) = w := by
  ext i hi
  have bitA := congrArg (fun v => v.getLsbD (i - 6)) hA
  have bitB := congrArg (fun v => v.getLsbD (i - 16)) hB
  simp only [BitVec.getLsbD_extractLsb', BitVec.getLsbD_zero] at bitA bitB
  simp only [← BitVec.getLsbD_eq_getElem, getLsbD_packWord, fieldOp, fieldD, fieldCh, fieldImm32, fieldImm64,
    BitVec.getLsbD_extractLsb']
  split_ifs with h5 h6 h8 h16 h32 h64
  · simp [h5]
  · simp [show i = 5 by omega]
  · simpa [show i - 6 < 2 by omega, show 6 + (i - 6) = i by omega] using bitA.symm
  · simp [show i - 8 < 8 by omega, show 8 + (i - 8) = i by omega]
  · simpa [show i - 16 < 16 by omega, show 16 + (i - 16) = i by omega] using bitB.symm
  · simp [show i - 32 < 32 by omega, show 32 + (i - 32) = i by omega]
  · simp [show i - 64 < 64 by omega, show 64 + (i - 64) = i by omega]

@[simp] theorem regOfBit_bitOfReg (r : Reg) : regOfBit (bitOfReg r) = r := by cases r <;> rfl

@[simp] theorem bitOfReg_regOfBit (b : BitVec 1) : bitOfReg (regOfBit b) = b := by
  revert b
  decide

end Sys2Proof
end

