-- ==== Sys2Proof/Laws/Ops.lean ====
section
/-! SUPPORT. The laws of the pseudocode operators and of register contents: population counts, shifts, mk and val. -/

namespace Sys2Proof.Machine

/-! ## Population count -/

@[simp] theorem popcountBelow_zero {n : Nat} (v : BitVec n) : popcountBelow v 0 = 0 := rfl

theorem popcountBelow_succ {n : Nat} (v : BitVec n) (k : Nat) :
    popcountBelow v (k + 1) = popcountBelow v k + (v.getLsbD k).toNat := rfl

/-- Counts of words that agree below `k` agree. -/
theorem popcountBelow_congr {n m : Nat} {v : BitVec n} {w : BitVec m} {k : Nat}
    (h : ∀ i < k, v.getLsbD i = w.getLsbD i) : popcountBelow v k = popcountBelow w k := by
  induction k with
  | zero => rfl
  | succ k ih =>
    rw [popcountBelow_succ, popcountBelow_succ, ih fun i hi => h i (by omega), h k (by omega)]

theorem popcountBelow_le {n : Nat} (v : BitVec n) (k : Nat) : popcountBelow v k ≤ k := by
  induction k with
  | zero => exact Nat.le_refl 0
  | succ k ih =>
    have := Bool.toNat_le (v.getLsbD k)
    rw [popcountBelow_succ]
    omega

theorem popcount_le {n : Nat} (v : BitVec n) : popcount v ≤ n := popcountBelow_le v n

/-- The pseudocode's definition as a sum over the bits (00_scope.md R8). -/
theorem popcountBelow_eq_sum {n : Nat} (v : BitVec n) (k : Nat) :
    popcountBelow v k = ∑ i ∈ Finset.range k, (v.getLsbD i).toNat := by
  induction k with
  | zero => rfl
  | succ k ih => rw [popcountBelow_succ, ih, Finset.sum_range_succ]

/-- The count of a concatenation is the sum of the counts. -/
theorem popcount_append {n m : Nat} (h : BitVec n) (t : BitVec m) : popcount (h ++ t) = popcount h + popcount t := by
  have upper : ∀ k ≤ n, popcountBelow (h ++ t) (k + m) = popcount t + popcountBelow h k := by
    intro k hk
    induction k with
    | zero =>
      rw [Nat.zero_add, popcountBelow_zero, Nat.add_zero]
      exact popcountBelow_congr fun i hi => by simp [BitVec.getLsbD_append, hi]
    | succ k ih =>
      rw [Nat.add_right_comm, popcountBelow_succ, ih (by omega), popcountBelow_succ, BitVec.getLsbD_append]
      simp [Nat.add_assoc]
  exact (upper n (Nat.le_refl n)).trans (Nat.add_comm _ _)

/-! ## Shifts -/

/-- The guard of shlN changes no value. -/
theorem shlN_eq {n : Nat} (v : BitVec n) (k : Nat) : shlN v k = v <<< k := by
  unfold shlN
  split
  · rw [BitVec.shiftLeft_eq_zero ‹_›]
  · rfl

/-- The guard of shrN changes no value. -/
theorem shrN_eq {n : Nat} (v : BitVec n) (k : Nat) : shrN v k = v >>> k := by
  unfold shrN
  split
  · rw [BitVec.ushiftRight_eq_zero ‹_›]
  · rfl

/-! ## Register contents -/

/-- The 7-bit count of the words being written does not wrap. -/
theorem countWords_toNat (h : Head) (t : Tail) : (countWords h t).toNat = popcount h + popcount t := by
  have h64 := popcount_le h
  have h32 := popcount_le t
  unfold countWords
  rw [BitVec.toNat_ofNat, Nat.mod_eq_of_lt (by omega)]

@[simp] theorem mk_head (h : Head) (t : Tail) : (mk h t).head = h := rfl

@[simp] theorem mk_tail (h : Head) (t : Tail) : (mk h t).tail = t := rfl

/-- What mk writes has an exact count (10_state.md R23). -/
theorem mk_countExact (h : Head) (t : Tail) : (mk h t).countExact := countWords_toNat h t

theorem mk96_countExact (v : Value) : (mk96 v).countExact := mk_countExact _ _

/-- An exact count is at most 96. -/
theorem BitString.countExact.le {b : BitString} (hb : b.countExact) : b.pcnt.toNat ≤ 96 := by
  have h64 := popcount_le b.head
  have h32 := popcount_le b.tail
  unfold BitString.countExact at hb
  omega

/-- Bit i of `head ++ tail` (10_state.md R22). -/
theorem getLsbD_words (h : Head) (t : Tail) (i : Nat) :
    (h ++ t : Value).getLsbD i = if i < 32 then t.getLsbD i else h.getLsbD (i - 32) := by
  rw [BitVec.getLsbD_append]

/-- Bit i of a value is bit i of tail below 32 and bit i - 32 of head from 32 on (10_state.md R22). -/
theorem BitString.getLsbD_val (b : BitString) (i : Nat) :
    b.val.getLsbD i = if i < 32 then b.tail.getLsbD i else b.head.getLsbD (i - 32) := by
  exact getLsbD_words b.head b.tail i

/-- The value that mk96 writes is the value given. -/
@[simp] theorem mk96_val (v : Value) : (mk96 v).val = v := by
  ext i hi
  simp only [← BitVec.getLsbD_eq_getElem, BitString.getLsbD_val, mk96, mk_head, mk_tail, BitVec.getLsbD_extractLsb']
  split
  · simp [*]
  · rw [Nat.add_sub_cancel' (by omega)]
    simp only [show i - 32 < 64 by omega, decide_true, Bool.true_and]

/-- The count of a value is the sum of the counts of its words. -/
theorem BitString.popcount_val (b : BitString) : popcount b.val = popcount b.head + popcount b.tail :=
  popcount_append b.head b.tail

/-- A content is determined by its value when its count is exact. -/
theorem BitString.ext_of_val {a b : BitString} (ha : a.countExact) (hb : b.countExact) (h : a.val = b.val) : a = b := by
  have hpop := congrArg popcount h
  rw [BitString.popcount_val, BitString.popcount_val] at hpop
  have hhead : a.head = b.head := by
    ext i hi
    have := congrArg (fun v => v.getLsbD (i + 32)) h
    simpa [BitString.getLsbD_val, BitVec.getLsbD_eq_getElem, hi] using this
  have htail : a.tail = b.tail := by
    ext i hi
    have := congrArg (fun v => v.getLsbD i) h
    simpa [BitString.getLsbD_val, BitVec.getLsbD_eq_getElem, hi] using this
  have hcnt : a.pcnt = b.pcnt := BitVec.eq_of_toNat_eq (by
    unfold BitString.countExact at ha hb
    omega)
  cases a
  cases b
  simp only at hhead htail hcnt
  rw [hhead, htail, hcnt]

end Sys2Proof.Machine
end

