-- ==== Sys2Proof/Laws/State.lean ====
section
/-! SUPPORT. One lemma per field per update of State, and the laws of the register accessors. -/

namespace Sys2Proof.Machine

variable (s : State) (d : Reg) (b : BitString)

/-! ## Accessors -/

@[simp] theorem State.x_x0 : s.x .x0 = s.x0 := rfl

@[simp] theorem State.x_x1 : s.x .x1 = s.x1 := rfl

@[simp] theorem State.v_x0 : s.v .x0 = s.v0 := rfl

@[simp] theorem State.v_x1 : s.v .x1 = s.v1 := rfl

/-! ## writeX -/

@[simp] theorem State.writeX_x_same : (s.writeX d b).x d = b := by cases d <;> rfl

@[simp] theorem State.writeX_v_same : (s.writeX d b).v d = true := by cases d <;> rfl

theorem State.writeX_x_other {e : Reg} (h : e ≠ d) : (s.writeX d b).x e = s.x e := by
  cases d <;> cases e <;> first | rfl | exact absurd rfl h

theorem State.writeX_v_other {e : Reg} (h : e ≠ d) : (s.writeX d b).v e = s.v e := by
  cases d <;> cases e <;> first | rfl | exact absurd rfl h

@[simp] theorem State.writeX_x0_x0 : (s.writeX .x0 b).x0 = b := rfl

@[simp] theorem State.writeX_x0_x1 : (s.writeX .x0 b).x1 = s.x1 := rfl

@[simp] theorem State.writeX_x0_v0 : (s.writeX .x0 b).v0 = true := rfl

@[simp] theorem State.writeX_x0_v1 : (s.writeX .x0 b).v1 = s.v1 := rfl

@[simp] theorem State.writeX_x1_x1 : (s.writeX .x1 b).x1 = b := rfl

@[simp] theorem State.writeX_x1_x0 : (s.writeX .x1 b).x0 = s.x0 := rfl

@[simp] theorem State.writeX_x1_v1 : (s.writeX .x1 b).v1 = true := rfl

@[simp] theorem State.writeX_x1_v0 : (s.writeX .x1 b).v0 = s.v0 := rfl

@[simp] theorem State.writeX_rkind : (s.writeX d b).rkind = s.rkind := by cases d <;> rfl

@[simp] theorem State.writeX_flag : (s.writeX d b).flag = s.flag := by cases d <;> rfl

@[simp] theorem State.writeX_cnt : (s.writeX d b).cnt = s.cnt := by cases d <;> rfl

@[simp] theorem State.writeX_fault : (s.writeX d b).fault = s.fault := by cases d <;> rfl

@[simp] theorem State.writeX_fcause : (s.writeX d b).fcause = s.fcause := by cases d <;> rfl

@[simp] theorem State.writeX_input : (s.writeX d b).input = s.input := by cases d <;> rfl

@[simp] theorem State.writeX_observed : (s.writeX d b).observed = s.observed := by cases d <;> rfl

@[simp] theorem State.writeX_midReads : (s.writeX d b).midReads = s.midReads := by cases d <;> rfl

/-! ## setRKind -/

@[simp] theorem State.setRKind_x0 (k : RKind) : (s.setRKind k).x0 = s.x0 := rfl

@[simp] theorem State.setRKind_x1 (k : RKind) : (s.setRKind k).x1 = s.x1 := rfl

@[simp] theorem State.setRKind_v0 (k : RKind) : (s.setRKind k).v0 = s.v0 := rfl

@[simp] theorem State.setRKind_v1 (k : RKind) : (s.setRKind k).v1 = s.v1 := rfl

@[simp] theorem State.setRKind_rkind (k : RKind) : (s.setRKind k).rkind = k := rfl

@[simp] theorem State.setRKind_flag (k : RKind) : (s.setRKind k).flag = s.flag := rfl

@[simp] theorem State.setRKind_cnt (k : RKind) : (s.setRKind k).cnt = s.cnt := rfl

@[simp] theorem State.setRKind_fault (k : RKind) : (s.setRKind k).fault = s.fault := rfl

@[simp] theorem State.setRKind_fcause (k : RKind) : (s.setRKind k).fcause = s.fcause := rfl

@[simp] theorem State.setRKind_input (k : RKind) : (s.setRKind k).input = s.input := rfl

@[simp] theorem State.setRKind_observed (k : RKind) : (s.setRKind k).observed = s.observed := rfl

@[simp] theorem State.setRKind_midReads (k : RKind) : (s.setRKind k).midReads = s.midReads := rfl

/-! ## putFlag -/

@[simp] theorem State.putFlag_x0 (f : Bool) : (s.putFlag f).x0 = s.x0 := rfl

@[simp] theorem State.putFlag_x1 (f : Bool) : (s.putFlag f).x1 = s.x1 := rfl

@[simp] theorem State.putFlag_v0 (f : Bool) : (s.putFlag f).v0 = s.v0 := rfl

@[simp] theorem State.putFlag_v1 (f : Bool) : (s.putFlag f).v1 = s.v1 := rfl

@[simp] theorem State.putFlag_rkind (f : Bool) : (s.putFlag f).rkind = .bool := rfl

@[simp] theorem State.putFlag_flag (f : Bool) : (s.putFlag f).flag = f := rfl

@[simp] theorem State.putFlag_cnt (f : Bool) : (s.putFlag f).cnt = s.cnt := rfl

@[simp] theorem State.putFlag_fault (f : Bool) : (s.putFlag f).fault = s.fault := rfl

@[simp] theorem State.putFlag_fcause (f : Bool) : (s.putFlag f).fcause = s.fcause := rfl

@[simp] theorem State.putFlag_input (f : Bool) : (s.putFlag f).input = s.input := rfl

@[simp] theorem State.putFlag_observed (f : Bool) : (s.putFlag f).observed = s.observed := rfl

@[simp] theorem State.putFlag_midReads (f : Bool) : (s.putFlag f).midReads = s.midReads := rfl

/-! ## putCount -/

@[simp] theorem State.putCount_x0 (c : Count) : (s.putCount c).x0 = s.x0 := rfl

@[simp] theorem State.putCount_x1 (c : Count) : (s.putCount c).x1 = s.x1 := rfl

@[simp] theorem State.putCount_v0 (c : Count) : (s.putCount c).v0 = s.v0 := rfl

@[simp] theorem State.putCount_v1 (c : Count) : (s.putCount c).v1 = s.v1 := rfl

@[simp] theorem State.putCount_rkind (c : Count) : (s.putCount c).rkind = .count := rfl

@[simp] theorem State.putCount_flag (c : Count) : (s.putCount c).flag = s.flag := rfl

@[simp] theorem State.putCount_cnt (c : Count) : (s.putCount c).cnt = c := rfl

@[simp] theorem State.putCount_fault (c : Count) : (s.putCount c).fault = s.fault := rfl

@[simp] theorem State.putCount_fcause (c : Count) : (s.putCount c).fcause = s.fcause := rfl

@[simp] theorem State.putCount_input (c : Count) : (s.putCount c).input = s.input := rfl

@[simp] theorem State.putCount_observed (c : Count) : (s.putCount c).observed = s.observed := rfl

@[simp] theorem State.putCount_midReads (c : Count) : (s.putCount c).midReads = s.midReads := rfl

/-! ## raiseUninit -/

@[simp] theorem State.raiseUninit_x0 : (s.raiseUninit d).x0 = s.x0 := rfl

@[simp] theorem State.raiseUninit_x1 : (s.raiseUninit d).x1 = s.x1 := rfl

@[simp] theorem State.raiseUninit_v0 : (s.raiseUninit d).v0 = s.v0 := rfl

@[simp] theorem State.raiseUninit_v1 : (s.raiseUninit d).v1 = s.v1 := rfl

@[simp] theorem State.raiseUninit_rkind : (s.raiseUninit d).rkind = .fault := rfl

@[simp] theorem State.raiseUninit_flag : (s.raiseUninit d).flag = s.flag := rfl

@[simp] theorem State.raiseUninit_cnt : (s.raiseUninit d).cnt = s.cnt := rfl

@[simp] theorem State.raiseUninit_fault : (s.raiseUninit d).fault = true := rfl

@[simp] theorem State.raiseUninit_fcause : (s.raiseUninit d).fcause = if s.fault then s.fcause else causeOf d := rfl

@[simp] theorem State.raiseUninit_input : (s.raiseUninit d).input = s.input := rfl

@[simp] theorem State.raiseUninit_observed : (s.raiseUninit d).observed = s.observed := rfl

@[simp] theorem State.raiseUninit_midReads : (s.raiseUninit d).midReads = s.midReads := rfl

/-! ## applyReset -/

@[simp] theorem State.applyReset_x0 : (s.applyReset).x0 = BitString.atReset := rfl

@[simp] theorem State.applyReset_x1 : (s.applyReset).x1 = BitString.atReset := rfl

@[simp] theorem State.applyReset_v0 : (s.applyReset).v0 = false := rfl

@[simp] theorem State.applyReset_v1 : (s.applyReset).v1 = false := rfl

@[simp] theorem State.applyReset_rkind : (s.applyReset).rkind = .none := rfl

@[simp] theorem State.applyReset_flag : (s.applyReset).flag = false := rfl

@[simp] theorem State.applyReset_cnt : (s.applyReset).cnt = 0#7 := rfl

@[simp] theorem State.applyReset_fault : (s.applyReset).fault = false := rfl

@[simp] theorem State.applyReset_fcause : (s.applyReset).fcause = .none := rfl

@[simp] theorem State.applyReset_input : (s.applyReset).input = s.input := rfl

@[simp] theorem State.applyReset_observed : (s.applyReset).observed = s.observed := rfl

@[simp] theorem State.applyReset_midReads : (s.applyReset).midReads = s.midReads := rfl

/-! ## observe -/

@[simp] theorem State.observe_x0 (p : ReadPort) : (s.observe p).x0 = s.x0 := rfl

@[simp] theorem State.observe_x1 (p : ReadPort) : (s.observe p).x1 = s.x1 := rfl

@[simp] theorem State.observe_v0 (p : ReadPort) : (s.observe p).v0 = s.v0 := rfl

@[simp] theorem State.observe_v1 (p : ReadPort) : (s.observe p).v1 = s.v1 := rfl

@[simp] theorem State.observe_rkind (p : ReadPort) : (s.observe p).rkind = s.rkind := rfl

@[simp] theorem State.observe_flag (p : ReadPort) : (s.observe p).flag = s.flag := rfl

@[simp] theorem State.observe_cnt (p : ReadPort) : (s.observe p).cnt = s.cnt := rfl

@[simp] theorem State.observe_fault (p : ReadPort) : (s.observe p).fault = s.fault := rfl

@[simp] theorem State.observe_fcause (p : ReadPort) : (s.observe p).fcause = s.fcause := rfl

@[simp] theorem State.observe_input (p : ReadPort) : (s.observe p).input = s.input := rfl

@[simp] theorem State.observe_observed (p : ReadPort) : (s.observe p).observed = s.readPort p :: s.observed := rfl

@[simp] theorem State.observe_midReads (p : ReadPort) : (s.observe p).midReads = s.midReads := rfl

/-! ## Registers under the other updates -/

@[simp] theorem State.setRKind_x (k : RKind) : (s.setRKind k).x d = s.x d := by cases d <;> rfl

@[simp] theorem State.setRKind_v (k : RKind) : (s.setRKind k).v d = s.v d := by cases d <;> rfl

@[simp] theorem State.putFlag_x (f : Bool) : (s.putFlag f).x d = s.x d := by cases d <;> rfl

@[simp] theorem State.putFlag_v (f : Bool) : (s.putFlag f).v d = s.v d := by cases d <;> rfl

@[simp] theorem State.putCount_x (c : Count) : (s.putCount c).x d = s.x d := by cases d <;> rfl

@[simp] theorem State.putCount_v (c : Count) : (s.putCount c).v d = s.v d := by cases d <;> rfl

@[simp] theorem State.raiseUninit_x (e : Reg) : (s.raiseUninit e).x d = s.x d := by cases d <;> rfl

@[simp] theorem State.raiseUninit_v (e : Reg) : (s.raiseUninit e).v d = s.v d := by cases d <;> rfl

@[simp] theorem State.observe_x (p : ReadPort) : (s.observe p).x d = s.x d := by cases d <;> rfl

@[simp] theorem State.observe_v (p : ReadPort) : (s.observe p).v d = s.v d := by cases d <;> rfl

/-! ## Composite updates -/

@[simp] theorem State.putBits_eq : s.putBits b = (s.writeX .x0 b).setRKind .bits := rfl

@[simp] theorem State.putLoaded_eq : s.putLoaded d b = (s.writeX d b).setRKind .loaded := rfl

@[simp] theorem State.rejectBad_eq : s.rejectBad = s.setRKind .bad := rfl

end Sys2Proof.Machine
end

