-- ==== Sys2Proof/Laws/Operands.lean ====
section
/-! SUPPORT. What `require` can do (00_scope.md R9), and the bits after a pattern character is shifted in
(40_construction.md R74). -/

namespace Sys2Proof.Machine

variable {s t done : State} {ds : List Reg} {d : Reg}

@[simp] theorem firstUnloaded_nil : s.firstUnloaded [] = none := rfl

@[simp] theorem firstUnloaded_cons :
    s.firstUnloaded (d :: ds) = if s.v d then s.firstUnloaded ds else some d := rfl

/-- Nothing is found exactly when every register of the list is loaded. -/
theorem firstUnloaded_eq_none : s.firstUnloaded ds = none ↔ ∀ d ∈ ds, s.v d = true := by
  induction ds with
  | nil => simp
  | cons d ds ih => by_cases h : s.v d = true <;> simp [h, ih]

/-- What is found is a register of the list, and it is unloaded. -/
theorem firstUnloaded_some (h : s.firstUnloaded ds = some d) : d ∈ ds ∧ s.v d = false := by
  induction ds with
  | nil => simp at h
  | cons e ds ih =>
    by_cases he : s.v e = true
    · rw [firstUnloaded_cons, if_pos he] at h
      exact ⟨List.mem_cons_of_mem e (ih h).1, (ih h).2⟩
    · rw [firstUnloaded_cons, if_neg he, Option.some.injEq] at h
      subst h
      exact ⟨List.mem_cons_self, by simpa using he⟩

/-- With every register loaded the command's writes happen. -/
theorem requireThen_loaded (h : ∀ d ∈ ds, s.v d = true) : requireThen ds s done = .next done := by
  unfold requireThen
  rw [firstUnloaded_eq_none.mpr h]

/-- With a register unloaded, UNINIT of the first such register is raised and nothing else happens. -/
theorem requireThen_unloaded (h : s.firstUnloaded ds = some d) : requireThen ds s done = .next (s.raiseUninit d) := by
  unfold requireThen
  rw [h]

/-- Everything require can do. -/
theorem requireThen_cases (h : requireThen ds s done = .next t) :
    (s.firstUnloaded ds = none ∧ t = done) ∨
      (∃ d ∈ ds, s.firstUnloaded ds = some d ∧ s.v d = false ∧ t = s.raiseUninit d) := by
  unfold requireThen at h
  cases hf : s.firstUnloaded ds with
  | none =>
    rw [hf] at h
    exact .inl ⟨rfl, by injection h with h; exact h.symm⟩
  | some d =>
    rw [hf] at h
    exact .inr ⟨d, (firstUnloaded_some hf).1, rfl, (firstUnloaded_some hf).2, by injection h with h; exact h.symm⟩

/-- Require always answers a next state. -/
theorem requireThen_next : ∃ t, requireThen ds s done = .next t := by
  unfold requireThen
  cases s.firstUnloaded ds with
  | none => exact ⟨done, rfl⟩
  | some d => exact ⟨s.raiseUninit d, rfl⟩

/-- Shifting a character in: bit 0 is the character's, every other bit is the one below it, and bit 95 is dropped. -/
theorem getLsbD_shiftInChar (v : Value) (ch : CharCode) (i : Nat) (hi : i < 96) :
    (shiftInChar v ch).getLsbD i = if i = 0 then isOneChar ch else v.getLsbD (i - 1) := by
  unfold shiftInChar
  rw [shlN_eq, BitVec.getLsbD_or, BitVec.getLsbD_shiftLeft]
  cases i with
  | zero => simp
  | succ i => simp [hi]

end Sys2Proof.Machine
end

