-- ==== Sys2Proof/Laws/Exec.lean ====
section
/-! SUPPORT. Every command has one shape: the registers of its row of 10_state.md R26 are required, then its writes happen. -/

namespace Sys2Proof.Machine

/-- The writes of a command whose registers are loaded. -/
def effectOf (i : Instr) (s : State) : State :=
  match i with
  | .and => s.putBits (mk (s.x0.head &&& s.x1.head) (s.x0.tail &&& s.x1.tail))
  | .or => s.putBits (mk (s.x0.head ||| s.x1.head) (s.x0.tail ||| s.x1.tail))
  | .xor => s.putBits (mk (s.x0.head ^^^ s.x1.head) (s.x0.tail ^^^ s.x1.tail))
  | .not => s.putBits (mk (~~~s.x0.head) (~~~s.x0.tail))
  | .shl n => s.putBits (mk96 (shlN s.x0.val n))
  | .shr n => s.putBits (mk96 (shrN s.x0.val n))
  | .popcnt => s.putCount s.x0.pcnt
  | .lt => s.putFlag (flagLt s.x0 s.x1)
  | .gt => s.putFlag (flagGt s.x0 s.x1)
  | .le => s.putFlag (flagLe s.x0 s.x1)
  | .ge => s.putFlag (flagGe s.x0 s.x1)
  | .eq => s.putFlag (flagEq s.x0 s.x1)
  | .ne => s.putFlag (flagNe s.x0 s.x1)
  | .incl => s.putFlag (flagIncl s.x0 s.x1)
  | .beq => s.putFlag (flagBeq s.x0 s.x1)
  | .ldw d head tail => s.putLoaded d (mk head tail)
  | .ldpz d => s.putLoaded d (mk 0#64 0#32)
  | .ldpc d ch => s.putLoaded d (mk96 (shiftInChar (s.x d).val ch))

/-- The one shape of every command. -/
theorem exec_eq (i : Instr) (s : State) : exec i s = requireThen (readsOf i) s (effectOf i s) := by cases i <;> rfl

/-- Everything a command can do: its writes, or UNINIT of its first unloaded register. -/
theorem exec_cases {i : Instr} {s t : State} (h : exec i s = .next t) :
    (s.firstUnloaded (readsOf i) = none ∧ t = effectOf i s) ∨
      (∃ d ∈ readsOf i, s.firstUnloaded (readsOf i) = some d ∧ s.v d = false ∧ t = s.raiseUninit d) := by
  rw [exec_eq] at h
  exact requireThen_cases h

/-- Everything the writes of a command can be: a register content made by mk, a flag or a count. -/
theorem effectOf_cases (i : Instr) (s : State) :
    (∃ h t, effectOf i s = s.putBits (mk h t) ∧ readsOf i ≠ [] ∧ .x0 ∈ readsOf i) ∨
      (∃ f, effectOf i s = s.putFlag f ∧ readsOf i = bothRegisters) ∨
      (effectOf i s = s.putCount s.x0.pcnt ∧ readsOf i = accumulatorOnly) ∨
      (∃ d h t, effectOf i s = s.putLoaded d (mk h t) ∧ writesOf i = some d) := by
  cases i
  case ldw d h t => exact .inr (.inr (.inr ⟨d, h, t, rfl, rfl⟩))
  case ldpz d => exact .inr (.inr (.inr ⟨d, 0#64, 0#32, rfl, rfl⟩))
  case ldpc d ch => exact .inr (.inr (.inr ⟨d, _, _, rfl, rfl⟩))
  case popcnt => exact .inr (.inr (.inl ⟨rfl, rfl⟩))
  case and => exact .inl ⟨_, _, rfl, by simp [readsOf, bothRegisters]⟩
  case or => exact .inl ⟨_, _, rfl, by simp [readsOf, bothRegisters]⟩
  case xor => exact .inl ⟨_, _, rfl, by simp [readsOf, bothRegisters]⟩
  case not => exact .inl ⟨_, _, rfl, by simp [readsOf, accumulatorOnly]⟩
  case shl n => exact .inl ⟨_, _, rfl, by simp [readsOf, accumulatorOnly]⟩
  case shr n => exact .inl ⟨_, _, rfl, by simp [readsOf, accumulatorOnly]⟩
  all_goals exact .inr (.inl ⟨_, rfl, rfl⟩)

/-- No command changes the outside world's fields. -/
theorem exec_outside {i : Instr} {s t : State} (h : exec i s = .next t) :
    t.input = s.input ∧ t.observed = s.observed ∧ t.midReads = s.midReads := by
  rcases exec_cases h with ⟨-, rfl⟩ | ⟨d, -, -, -, rfl⟩
  · rcases effectOf_cases i s with ⟨_, _, he, -⟩ | ⟨_, he, -⟩ | ⟨he, -⟩ | ⟨_, _, _, he, -⟩ <;> simp [he]
  · simp

end Sys2Proof.Machine
end

