-- ==== Sys2Proof/Laws/Flags.lean ====
section
/-! SUPPORT. The STATUS word bit by bit (10_state.md R27). -/

namespace Sys2Proof.Machine

/-- Bit i of STATUS. -/
theorem State.getLsbD_statusWord (s : State) (i : Nat) :
    s.statusWord.getLsbD i =
      if i < 3 then s.rkind.code.getLsbD i
      else if i < 4 then s.flag
      else if i < 11 then s.cnt.getLsbD (i - 4)
      else if i < 12 then s.fault
      else if i < 14 then s.fcause.code.getLsbD (i - 12)
      else if i < 15 then s.v0
      else if i < 16 then s.v1
      else false := by
  unfold State.statusWord
  iterate 7 rw [BitVec.getLsbD_append]
  simp only [Nat.sub_sub, Nat.reduceAdd]
  by_cases h3 : i < 3
  · simp [h3]
  by_cases h4 : i < 4
  · simp [show i = 3 by omega]
  by_cases h11 : i < 11
  · simp [h3, h4, h11, show ¬ i - 3 < 1 by omega, show i - 4 < 7 by omega]
  by_cases h12 : i < 12
  · simp [show i = 11 by omega]
  by_cases h14 : i < 14
  · simp [h3, h4, h11, h12, h14, show ¬ i - 3 < 1 by omega, show ¬ i - 4 < 7 by omega, show ¬ i - 11 < 1 by omega,
      show i - 12 < 2 by omega]
  by_cases h15 : i < 15
  · simp [show i = 14 by omega]
  by_cases h16 : i < 16
  · simp [show i = 15 by omega]
  simp [h3, h4, h11, h12, h14, h15, h16, show ¬ i - 3 < 1 by omega, show ¬ i - 4 < 7 by omega, show ¬ i - 11 < 1 by omega,
    show ¬ i - 12 < 2 by omega, show ¬ i - 14 < 1 by omega, show ¬ i - 15 < 1 by omega]

end Sys2Proof.Machine
end

