-- ==== Sys2Proof/Laws/PerInstr.lean ====
section
/-! SUPPORT. Statements made per command. EncodedShape: a command's word carries the command's opcode and nothing outside
the live fields of its format (30_encoding.md R52). -/

namespace Sys2Proof

/-- The word of a command carries its opcode, and every bit outside its format's live fields is 0. -/
def Laws.EncodedShape.Statement (i : Instr) : Prop :=
  fieldOp (encode i) = i.opcode ∧ encode i &&& ~~~ liveMask i.format = 0#128

/-- A packed word whose fields lie within a packed mask has no bit outside it. -/
theorem packWord_within {op op' : BitVec 5} {d d' : BitVec 1} {ch ch' : CharCode} {imm32 imm32' : Tail} {imm64 imm64' : Head}
    (hop : op &&& ~~~op' = 0#5) (hd : d &&& ~~~d' = 0#1) (hch : ch &&& ~~~ch' = 0#8) (h32 : imm32 &&& ~~~imm32' = 0#32)
    (h64 : imm64 &&& ~~~imm64' = 0#64) :
    packWord op d ch imm32 imm64 &&& ~~~ packWord op' d' ch' imm32' imm64' = 0#128 := by
  rw [packWord_and_not, hop, hd, hch, h32, h64, packWord_zero]

theorem packR_within (op : BitVec 5) : packR op &&& ~~~ liveMask .r = 0#128 := by
  rw [liveMask_eq]
  exact packWord_within (by simp) (by simp) (by simp) (by simp) (by simp)

theorem packS_within (op : BitVec 5) (n : Nat) : packS op n &&& ~~~ liveMask .s = 0#128 := by
  rw [liveMask_eq]
  exact packWord_within (by simp) (by simp) (by simp) (by simp) (by simp)

theorem packW_within (op : BitVec 5) (d : Reg) (head : Head) (tail : Tail) :
    packW op d head tail &&& ~~~ liveMask .w = 0#128 := by
  rw [liveMask_eq]
  exact packWord_within (by simp) (by cases d <;> rfl) (by simp) (by simp) (by simp)

theorem packZ_within (op : BitVec 5) (d : Reg) : packZ op d &&& ~~~ liveMask .z = 0#128 := by
  rw [liveMask_eq]
  exact packWord_within (by simp) (by cases d <;> rfl) (by simp) (by simp) (by simp)

theorem packC_within (op : BitVec 5) (d : Reg) (ch : CharCode) : packC op d ch &&& ~~~ liveMask .c = 0#128 := by
  rw [liveMask_eq]
  exact packWord_within (by simp) (by cases d <;> rfl) (by simp) (by simp) (by simp)

theorem Laws.EncodedShape.and : Laws.EncodedShape.Statement .and :=
  ⟨fieldOp_packWord _ _ _ _ _, packR_within _⟩

theorem Laws.EncodedShape.or : Laws.EncodedShape.Statement .or :=
  ⟨fieldOp_packWord _ _ _ _ _, packR_within _⟩

theorem Laws.EncodedShape.xor : Laws.EncodedShape.Statement .xor :=
  ⟨fieldOp_packWord _ _ _ _ _, packR_within _⟩

theorem Laws.EncodedShape.not : Laws.EncodedShape.Statement .not :=
  ⟨fieldOp_packWord _ _ _ _ _, packR_within _⟩

theorem Laws.EncodedShape.shl (n : Nat) : Laws.EncodedShape.Statement (.shl n) :=
  ⟨fieldOp_packWord _ _ _ _ _, packS_within _ n⟩

theorem Laws.EncodedShape.shr (n : Nat) : Laws.EncodedShape.Statement (.shr n) :=
  ⟨fieldOp_packWord _ _ _ _ _, packS_within _ n⟩

theorem Laws.EncodedShape.popcnt : Laws.EncodedShape.Statement .popcnt :=
  ⟨fieldOp_packWord _ _ _ _ _, packR_within _⟩

theorem Laws.EncodedShape.lt : Laws.EncodedShape.Statement .lt :=
  ⟨fieldOp_packWord _ _ _ _ _, packR_within _⟩

theorem Laws.EncodedShape.gt : Laws.EncodedShape.Statement .gt :=
  ⟨fieldOp_packWord _ _ _ _ _, packR_within _⟩

theorem Laws.EncodedShape.le : Laws.EncodedShape.Statement .le :=
  ⟨fieldOp_packWord _ _ _ _ _, packR_within _⟩

theorem Laws.EncodedShape.ge : Laws.EncodedShape.Statement .ge :=
  ⟨fieldOp_packWord _ _ _ _ _, packR_within _⟩

theorem Laws.EncodedShape.eq : Laws.EncodedShape.Statement .eq :=
  ⟨fieldOp_packWord _ _ _ _ _, packR_within _⟩

theorem Laws.EncodedShape.ne : Laws.EncodedShape.Statement .ne :=
  ⟨fieldOp_packWord _ _ _ _ _, packR_within _⟩

theorem Laws.EncodedShape.incl : Laws.EncodedShape.Statement .incl :=
  ⟨fieldOp_packWord _ _ _ _ _, packR_within _⟩

theorem Laws.EncodedShape.beq : Laws.EncodedShape.Statement .beq :=
  ⟨fieldOp_packWord _ _ _ _ _, packR_within _⟩

theorem Laws.EncodedShape.ldw (d : Reg) (head : Head) (tail : Tail) : Laws.EncodedShape.Statement (.ldw d head tail) :=
  ⟨fieldOp_packWord _ _ _ _ _, packW_within _ d head tail⟩

theorem Laws.EncodedShape.ldpz (d : Reg) : Laws.EncodedShape.Statement (.ldpz d) :=
  ⟨fieldOp_packWord _ _ _ _ _, packZ_within _ d⟩

theorem Laws.EncodedShape.ldpc (d : Reg) (ch : CharCode) : Laws.EncodedShape.Statement (.ldpc d ch) :=
  ⟨fieldOp_packWord _ _ _ _ _, packC_within _ d ch⟩

end Sys2Proof
end

