-- ==== Sys2Proof/Laws/Step.lean ====
section
/-! SUPPORT. What a step does, once for each kind of input. -/

namespace Sys2Proof.Machine

variable {s : State} {rest : List HostInput}

/-- A step takes the host's next input. -/
theorem step_input {input : HostInput} (h : s.input = input :: rest) :
    step s = runInput input { s with input := rest } := by
  unfold step takeInput
  rw [h]

theorem runInput_command (w : CmdWord) : runInput (.command w) s = runWord w s := rfl

theorem runInput_read (p : ReadPort) : runInput (.read p) s = .next (s.observe p) := rfl

theorem runInput_reset : runInput .reset s = .next s.applyReset := rfl

/-- A command word always answers a next state (60_exceptions.md R130). -/
theorem runWord_next (w : CmdWord) (s : State) : ∃ t, runWord w s = .next t := by
  unfold runWord
  cases decode w with
  | command i =>
    simp only [exec_eq]
    exact requireThen_next
  | bad _ => exact ⟨_, rfl⟩

/-- Everything a command word can do. -/
theorem runWord_cases {w : CmdWord} {s t : State} (h : runWord w s = .next t) :
    (∃ i, decode w = .command i ∧ exec i s = .next t) ∨ (∃ r, decode w = .bad r ∧ t = s.rejectBad) := by
  unfold runWord at h
  cases hd : decode w with
  | command i =>
    rw [hd] at h
    exact .inl ⟨i, rfl, h⟩
  | bad r =>
    rw [hd] at h
    exact .inr ⟨r, rfl, by injection h with h; exact h.symm⟩

/-- Reads during a command change nothing but what the host has observed and the counter of the free values. -/
theorem observeDuring_frame (before after : State) (ports : List ReadPort) (t : State) :
    { observeDuring before after ports t with observed := t.observed, midReads := t.midReads } = t := by
  induction ports generalizing t with
  | nil => rfl
  | cons p ports ih =>
    have h := ih { t with
      observed := (if Config.midReadSeesNew t.midReads then after else before).readPort p :: t.observed
      midReads := t.midReads + 1 }
    unfold observeDuring
    generalize observeDuring before after ports _ = u at h ⊢
    cases u
    cases t
    simp_all

/-! ## Runs through the host's interface -/

/-- No step left. -/
theorem core_run_zero (s : State) : core.run 0 s = .next s := rfl

/-- A run goes on from the state a step answers. -/
theorem core_run_succ {n : Nat} {s t : State} (h : step s = .next t) : core.run (n + 1) s = core.run n t := by
  have h' : core.step s = .next t := h
  simp only [Host.Core.run, h']

end Sys2Proof.Machine
end

