-- ==== Sys2Proof/Tests/Slice0.lean ====
section
/-! SUPPORT. The model's own tests. Words, contents, counts and STATUS words are those of 95_test_vectors.md; below them, for
every statement with hypotheses, a witness that meets them. -/

namespace Sys2Proof.Tests

open Sys2Proof.Machine Sys2Proof.Claim Host

/-! ## Helpers -/

/-- A of 95_test_vectors.md section 2.3. -/
def vecA : BitString := { head := 0x0123456789abcdef#64, tail := 0xdeadbeef#32, pcnt := 56#7 }

/-- B of 95_test_vectors.md section 2.3. -/
def vecB : BitString := { head := 0xffff0000ffff0000#64, tail := 0x0000ffff#32, pcnt := 48#7 }

/-- The operand of 95_test_vectors.md section 2.4. -/
def vecX : BitString := { head := 0x8000000000000001#64, tail := 0x80000001#32, pcnt := 4#7 }

/-- Z of 95_test_vectors.md section 2.3. -/
def vecZ : BitString := { head := 0#64, tail := 0#32, pcnt := 0#7 }

/-- O of 95_test_vectors.md section 2.3. -/
def vecO : BitString := { head := 0xffffffffffffffff#64, tail := 0xffffffff#32, pcnt := 96#7 }

/-- c = fromBitPattern("1100") of 95_test_vectors.md section 2.6. -/
def vec1100 : BitString := { head := 0#64, tail := 0b1100#32, pcnt := 2#7 }

/-- d = fromBitPattern("0011") of 95_test_vectors.md section 2.6. -/
def vec0011 : BitString := { head := 0#64, tail := 0b0011#32, pcnt := 2#7 }

/-- After reset, X[0] loaded. -/
def withX0 (a : BitString) : State := { State.reset with x0 := a, v0 := true, rkind := .loaded }

/-- After reset, both registers loaded. -/
def withBoth (a b : BitString) : State := { withX0 a with x1 := b, v1 := true }

/-- A state the host gives one input. -/
def given (s : State) (input : HostInput) : State := { s with input := [input] }

/-- What a command leaves in X[0], with the STATUS word. -/
def afterX0 (i : Instr) (s : State) : Option (BitString × BitVec 32) :=
  match exec i s with
  | .next t => some (t.x0, t.statusWord)
  | .fault _ => none
  | .refused _ => none

/-- What a command leaves in X[1], with the STATUS word. -/
def afterX1 (i : Instr) (s : State) : Option (BitString × BitVec 32) :=
  match exec i s with
  | .next t => some (t.x1, t.statusWord)
  | .fault _ => none
  | .refused _ => none

/-- The STATUS word a command leaves. -/
def afterStatus (i : Instr) (s : State) : Option (BitVec 32) := (afterX0 i s).map Prod.snd

/-! ## WellFormed: the check refuses the ill-formed -/

theorem test_wf_refuses_shl_too_far : (Instr.shl (2 ^ 32)).wf = false := by decide

theorem test_wf_refuses_shr_too_far : (Instr.shr (2 ^ 32)).wf = false := by decide

theorem test_wf_accepts_the_largest_amounts : (Instr.shl 4294967295).wf = true ∧ (Instr.shr 4294967295).wf = true := by
  decide

/-! ## Decode: one word for each command, written out from 30_encoding.md R53 to R59 -/

theorem test_decode_and : decode 0x00000000000000000000000000000001#128 = .command .and := by decide

theorem test_decode_or : decode 0x00000000000000000000000000000002#128 = .command .or := by decide

theorem test_decode_xor : decode 0x00000000000000000000000000000003#128 = .command .xor := by decide

theorem test_decode_not : decode 0x00000000000000000000000000000004#128 = .command .not := by decide

theorem test_decode_shl : decode 0x00000000000000000000002500000005#128 = .command (.shl 37) := by decide

theorem test_decode_shr : decode 0x00000000000000000000005f00000006#128 = .command (.shr 95) := by decide

theorem test_decode_popcnt : decode 0x00000000000000000000000000000007#128 = .command .popcnt := by decide

theorem test_decode_lt : decode 0x00000000000000000000000000000008#128 = .command .lt := by decide

theorem test_decode_gt : decode 0x00000000000000000000000000000009#128 = .command .gt := by decide

theorem test_decode_le : decode 0x0000000000000000000000000000000a#128 = .command .le := by decide

theorem test_decode_ge : decode 0x0000000000000000000000000000000b#128 = .command .ge := by decide

theorem test_decode_eq : decode 0x0000000000000000000000000000000c#128 = .command .eq := by decide

theorem test_decode_ne : decode 0x0000000000000000000000000000000d#128 = .command .ne := by decide

theorem test_decode_incl : decode 0x0000000000000000000000000000000e#128 = .command .incl := by decide

theorem test_decode_beq : decode 0x0000000000000000000000000000000f#128 = .command .beq := by decide

theorem test_decode_ldw :
    decode 0x0123456789abcdefdeadbeef00000030#128 = .command (.ldw .x1 0x0123456789abcdef#64 0xdeadbeef#32) := by decide

theorem test_decode_ldpz :
    decode 0x11#128 = .command (.ldpz .x0) ∧ decode 0x31#128 = .command (.ldpz .x1) := by decide

theorem test_decode_ldpc :
    decode 0x3112#128 = .command (.ldpc .x0 0x31#8) ∧ decode 0x5832#128 = .command (.ldpc .x1 0x58#8) := by decide

/-- 95_test_vectors.md section 2.7, reserved opcodes. -/
theorem test_decode_reserved_opcodes :
    decode 0x00#128 = .bad .reservedOpcode ∧ decode 0x13#128 = .bad .reservedOpcode
      ∧ decode 0x1f#128 = .bad .reservedOpcode := by decide

/-- 95_test_vectors.md section 2.7, nonzero bits outside the live fields. -/
theorem test_decode_nonzero_dead_fields :
    decode 0x21#128 = .bad .nonzeroDeadField
      ∧ decode 0x00000000000000010000000000000001#128 = .bad .nonzeroDeadField
      ∧ decode 0x00000000000000010000000000000005#128 = .bad .nonzeroDeadField
      ∧ decode 0x50#128 = .bad .nonzeroDeadField
      ∧ decode 0x10012#128 = .bad .nonzeroDeadField
      ∧ decode 0x3104#128 = .bad .nonzeroDeadField
      ∧ decode 0x00000000000000000000000100000011#128 = .bad .nonzeroDeadField
      ∧ decode 0x8000000000000000000000000000000f#128 = .bad .nonzeroDeadField := by decide

/-- 20_memory.md R42: byte 0 is the lowest; R43: 15 bytes are no word. -/
theorem test_decode_bytes :
    decodeBytes [0x12, 0x31, 0, 0, 0, 0, 0, 0, 0, 0, 0, 0, 0, 0, 0, 0] = .word (.command (.ldpc .x0 0x31#8))
      ∧ decodeBytes [0x12, 0x31, 0, 0, 0, 0, 0, 0, 0, 0, 0, 0, 0, 0, 0] = .partialWord 15 := by decide

theorem test_table_word : decodeTableWord 128 0x25_0000_0005 = some (.shl 37) ∧ decodeTableWord 128 0x13 = none := by decide

/-- The word put on the command port is the next to run, after reset as in any state. -/
theorem test_with_fetch_word :
    step (State.reset.withFetchWord 128 0x31) = exec (.ldpz .x1) State.reset := rfl

/-! ## Register loads: 95_test_vectors.md sections 2.1 and 2.2 -/

theorem test_ldw_x1 :
    afterX1 (.ldw .x1 0x0123456789abcdef#64 0xdeadbeef#32) State.reset = some (vecA, 0x00008004#32) := by decide

theorem test_ldw_x0_all_ones :
    afterX0 (.ldw .x0 0xffffffffffffffff#64 0xffffffff#32) State.reset = some (vecO, 0x00004004#32) := by decide

theorem test_ldpz_clears : afterX0 (.ldpz .x0) (withX0 vecA) = some (vecZ, 0x00004004#32) := by decide

theorem test_ldpc_crosses_into_head :
    afterX0 (.ldpc .x0 0x30#8) (withX0 { head := 0#64, tail := 0x80000000#32, pcnt := 1#7 }) =
      some ({ head := 1#64, tail := 0#32, pcnt := 1#7 }, 0x00004004#32) := by decide

theorem test_ldpc_code_b1_counts_as_zero :
    afterX0 (.ldpc .x0 0xb1#8) (withX0 { head := 0#64, tail := 1#32, pcnt := 1#7 }) =
      some ({ head := 0#64, tail := 2#32, pcnt := 1#7 }, 0x00004004#32) := by decide

theorem test_from_bit_pattern_garbage :
    fromBitPattern [0x31#8, 0x30#8, 0x58#8, 0x31#8] = { head := 0#64, tail := 9#32, pcnt := 2#7 }
      ∧ fromBitPattern [0x20#8, 0x31#8, 0x61#8, 0x31#8] = { head := 0#64, tail := 5#32, pcnt := 2#7 } := by decide

set_option maxRecDepth 16384 in
theorem test_from_bit_pattern_drops_the_97th :
    fromBitPattern (0x31#8 :: List.replicate 96 0x30#8) = vecZ
      ∧ fromBitPattern (0x31#8 :: List.replicate 95 0x30#8) =
        { head := 0x8000000000000000#64, tail := 0#32, pcnt := 1#7 } := by decide

/-! ## Bitwise ALU: 95_test_vectors.md section 2.3 -/

theorem test_and : afterX0 .and (withBoth vecA vecB) =
    some ({ head := 0x0123000089ab0000#64, tail := 0x0000beef#32, pcnt := 25#7 }, 0x0000c001#32) := by decide

theorem test_or : afterX0 .or (withBoth vecA vecB) =
    some ({ head := 0xffff4567ffffcdef#64, tail := 0xdeadffff#32, pcnt := 79#7 }, 0x0000c001#32) := by decide

theorem test_xor : afterX0 .xor (withBoth vecA vecB) =
    some ({ head := 0xfedc45677654cdef#64, tail := 0xdead4110#32, pcnt := 54#7 }, 0x0000c001#32) := by decide

theorem test_not : afterX0 .not (withBoth vecA vecB) =
    some ({ head := 0xfedcba9876543210#64, tail := 0x21524110#32, pcnt := 40#7 }, 0x0000c001#32) := by decide

/-- Vector B-N1: X[1] is not checked. -/
theorem test_not_ignores_x1 :
    afterStatus .not (withX0 { head := 0#64, tail := 1#32, pcnt := 1#7 }) = some 0x00004001#32 := by decide

/-! ## Shifter: 95_test_vectors.md section 2.4 -/

theorem test_shl :
    (afterX0 (.shl 1) (withX0 vecX)).map Prod.fst =
        some { head := 0x0000000000000003#64, tail := 0x00000002#32, pcnt := 3#7 }
      ∧ (afterX0 (.shl 33) (withX0 vecX)).map Prod.fst =
        some { head := 0x0000000300000002#64, tail := 0x00000000#32, pcnt := 3#7 }
      ∧ (afterX0 (.shl 95) (withX0 vecX)).map Prod.fst =
        some { head := 0x8000000000000000#64, tail := 0x00000000#32, pcnt := 1#7 } := by decide

theorem test_shl_past_the_width :
    ∀ n ∈ [96, 97, 128, 1000, 4294967295], afterX0 (.shl n) (withX0 vecX) = some (vecZ, 0x00004001#32) := by decide

theorem test_shr :
    (afterX0 (.shr 1) (withX0 vecX)).map Prod.fst =
        some { head := 0x4000000000000000#64, tail := 0xc0000000#32, pcnt := 3#7 }
      ∧ (afterX0 (.shr 63) (withX0 vecX)).map Prod.fst =
        some { head := 0x0000000000000001#64, tail := 0x00000000#32, pcnt := 1#7 }
      ∧ (afterX0 (.shr 64) (withX0 vecX)).map Prod.fst =
        some { head := 0x0000000000000000#64, tail := 0x80000000#32, pcnt := 1#7 } := by decide

theorem test_shr_past_the_width :
    ∀ n ∈ [96, 97, 128, 1000, 4294967295], afterX0 (.shr n) (withX0 vecX) = some (vecZ, 0x00004001#32) := by decide

/-- The two-word datapaths give the table's words too. -/
theorem test_shift_datapaths :
    shlWords vecX.head vecX.tail 65 = (0x0000000200000000#64, 0x00000000#32)
      ∧ shlWords vecX.head vecX.tail 31 = (0x00000000c0000000#64, 0x80000000#32)
      ∧ shrWords vecX.head vecX.tail 65 = (0x0000000000000000#64, 0x40000000#32)
      ∧ shrWords vecX.head vecX.tail 31 = (0x0000000100000000#64, 0x00000003#32) := by decide

/-! ## Population count: 95_test_vectors.md sections 2.5 and 3 -/

theorem test_popcnt : afterX0 .popcnt (withX0 vecO) = some (vecO, 0x00004603#32) := by decide

/-! ## Ordering, equality and inclusion: 95_test_vectors.md section 2.6 -/

theorem test_lt : afterStatus .lt (withBoth vecZ vecO) = some 0x0000c00a#32
    ∧ afterStatus .lt (withBoth vec1100 vec0011) = some 0x0000c002#32 := by decide

theorem test_gt : afterStatus .gt (withBoth vecO vecZ) = some 0x0000c00a#32
    ∧ afterStatus .gt (withBoth vec1100 vec0011) = some 0x0000c002#32 := by decide

theorem test_le : afterStatus .le (withBoth vecO vecZ) = some 0x0000c002#32
    ∧ afterStatus .le (withBoth vec1100 vec0011) = some 0x0000c00a#32 := by decide

theorem test_ge : afterStatus .ge (withBoth vecZ vecO) = some 0x0000c002#32
    ∧ afterStatus .ge (withBoth vec1100 vec0011) = some 0x0000c00a#32 := by decide

theorem test_eq : afterStatus .eq (withBoth vecZ vecO) = some 0x0000c002#32
    ∧ afterStatus .eq (withBoth vec1100 vec0011) = some 0x0000c00a#32 := by decide

theorem test_ne : afterStatus .ne (withBoth vecZ vecO) = some 0x0000c00a#32
    ∧ afterStatus .ne (withBoth vec1100 vec0011) = some 0x0000c002#32 := by decide

theorem test_beq : afterStatus .beq (withBoth vec1100 vec0011) = some 0x0000c002#32
    ∧ afterStatus .beq (withBoth vecA vecA) = some 0x0000c00a#32 := by decide

theorem test_incl : afterStatus .incl (withBoth vecO vecA) = some 0x0000c00a#32
    ∧ afterStatus .incl (withBoth vecZ vecA) = some 0x0000c002#32 := by decide

/-! ## BAD and UNINIT: 95_test_vectors.md sections 2.7, 2.8 and program P4 -/

/-- The STATUS word after the one input of a state. -/
def stepStatus (s : State) : Option (BitVec 32) :=
  match step s with
  | .next t => some t.statusWord
  | .fault _ => none
  | .refused _ => none

theorem test_bad_word : stepStatus (given (withBoth vecA vecB) (.command 0x21#128)) = some 0x0000c005#32 := by decide

theorem test_uninit_0 : afterStatus .and State.reset = some 0x00001806#32 := by decide

theorem test_uninit_1 : afterStatus .and (withX0 vecA) = some 0x00006806#32
    ∧ afterStatus (.ldpc .x1 0x31#8) State.reset = some 0x00002806#32 := by decide

theorem test_first_cause_is_kept :
    afterStatus .lt { State.reset with
      x1 := vecA, v1 := true, rkind := .loaded, fault := true, fcause := .uninit0 } = some 0x00009806#32 := by decide

/-! ## The host's side -/

theorem test_operator_of :
    operatorOf "&".toList = .binary .and ∧ operatorOf "includes".toList = .binary .incl
      ∧ operatorOf "<<".toList = .shiftLeft ∧ operatorOf "set_bits".toList = .unary .popcnt
      ∧ operatorOf "+".toList = .unknown := by decide

/-- Program P1 is the test line `1010 & 1100`. -/
theorem test_test_line :
    testLine "1010".toList "&".toList (some "1100".toList) =
      some [0x11#128, 0x3112#128, 0x3012#128, 0x3112#128, 0x3012#128, 0x31#128, 0x3132#128, 0x3132#128, 0x3032#128,
        0x3032#128, 0x01#128] := by decide

/-- End of program P1: 92 zeros, `1000`, a blank line (90_conflicts.md C1, C3). -/
theorem test_report_bits :
    { withX0 { head := 0#64, tail := 8#32, pcnt := 1#7 } with rkind := .bits }.report =
      some (List.replicate 92 '0' ++ ['1', '0', '0', '0', '\n', '\n']) := by decide

theorem test_report_lines :
    { withBoth vecA vecB with rkind := .bool, flag := true }.reportLine = some "true".toList
      ∧ { withX0 vecA with rkind := .count, cnt := 94#7 }.reportLine = some "94".toList
      ∧ { State.reset with rkind := .bad }.reportLine = some "Bad input!".toList
      ∧ (withX0 vecA).reportLine = none := by decide

/-- Lines of 95_test_vectors.md, one of each shape. -/
theorem test_assemble :
    assembleLine "ldw x1, 0x0123456789abcdef, 0xdeadbeef".toList = some [0x0123456789abcdefdeadbeef00000030#128]
      ∧ assembleLine "ldpc x1, '1'".toList = some [0x3132#128]
      ∧ assembleLine "shr 95".toList = some [0x00000000000000000000005f00000006#128]
      ∧ assembleLine "popcnt".toList = some [0x07#128]
      ∧ assembleLine "shl 4294967296".toList = none := by decide

theorem test_assemble_pattern_and_raw_word :
    assembleLine "ldp x0, \"10\"".toList = some [0x11#128, 0x3112#128, 0x3012#128]
      ∧ assembleLine ".word 0x00000000000000000000000000000013".toList = some [0x13#128] := by decide

/-- R67 and program P4 write a raw word with fewer digits (log 22); no digit, or a 33rd, is no word. -/
theorem test_assemble_short_raw_word :
    assembleLine ".word 0x0".toList = some [0#128] ∧ assembleLine ".word 0x21".toList = some [0x21#128]
      ∧ assembleLine ".word 0x".toList = none
      ∧ assembleLine ".word 0x000000000000000000000000000000013".toList = none := by decide

/-! ## Witnesses: for each statement, a case that meets its hypotheses -/

theorem vecA_exact : vecA.countExact := by unfold BitString.countExact; decide

theorem vecB_exact : vecB.countExact := by unfold BitString.countExact; decide

theorem vecZ_exact : vecZ.countExact := by unfold BitString.countExact; decide

theorem vecO_exact : vecO.countExact := by unfold BitString.countExact; decide

/-- Both registers loaded, a predicate run, a fault recorded and reads made: a state far from reset. -/
def busy : State :=
  { x0 := vecA
    x1 := vecB
    v0 := true
    v1 := true
    rkind := .bool
    flag := true
    cnt := 56#7
    fault := true
    fcause := .uninit1
    input := []
    observed := [.x .x0 (some (vecA.val, 56#7)), .status 0x00006806#32]
    midReads := 2 }

theorem busy_inv : busy.Inv where
  count0 _ := vecA_exact
  count1 _ := vecB_exact
  cntLegal := by decide
  causeIffFault := by decide
  noneAfterReset := by decide
  bitsLoaded := by decide
  boolLoaded := by decide
  countOfX0 := by decide
  loadedSome := by decide
  faultSet := by decide
  observedExact := by
    unfold busy
    simp only [List.mem_cons, List.not_mem_nil, or_false, forall_eq_or_imp, forall_eq]
    exact ⟨by unfold PortValue.countExact; decide, trivial⟩

/-- What the host does next is no part of the invariant. -/
theorem given_inv {s : State} {input : HostInput} (h : s.Inv) : (given s input).Inv := ⟨h.1, h.2, h.3, h.4, h.5, h.6, h.7, h.8, h.9, h.10, h.11⟩

theorem witness_DecodeOfEncodeIsTheCommand :
    (Instr.shl 0).wf = true ∧ (Instr.shr 4294967295).wf = true ∧ (Instr.ldpc .x1 0xff#8).wf = true := by decide

theorem witness_EncodeOfDecodeIsTheWord :
    decode 0xffffffffffffffffffffffff00000030#128 = .command (.ldw .x1 0xffffffffffffffff#64 0xffffffff#32) := by decide

/-- One reserved word for each clause of 30_encoding.md R60, at the edges of the opcode ranges, and a word that is none. -/
theorem witness_ReservedEncodingsAreExactlyTheBadWords :
    (Reserved 0x00#128 ∧ Reserved 0x13#128 ∧ Reserved 0x1f#128 ∧ Reserved 0x41#128 ∧ Reserved 0x8000000f#128
        ∧ Reserved 0x2f#128 ∧ Reserved 0x111#128 ∧ Reserved 0x00000000000000000000000100000012#128
        ∧ Reserved 0x00000000000000010000000000000006#128)
      ∧ ¬ Reserved 0x12#128
      ∧ (given busy (.command 0x13#128)).input = .command 0x13#128 :: [] := by
  refine ⟨⟨?_, ?_, ?_, ?_, ?_, ?_, ?_, ?_, ?_⟩, ?_, rfl⟩ <;> dsimp only [Reserved] <;> decide

theorem witness_BytesCarryWordsInLittleEndianOrder :
    ([0x10, 0, 0, 0, 1, 2, 3, 4, 5, 6, 7, 8, 9, 10, 11, 12] : List Byte).length = 16 := by decide

/-- No byte, and one byte too many. -/
theorem witness_PartialWordNeverReachesTheDecoder :
    ([] : List Byte).length ≠ 16 ∧ (List.replicate 17 (0 : Byte)).length ≠ 16 := by decide

theorem witness_StepRunsTheDecodedCommand :
    (given busy (.command 0x3112#128)).input = .command 0x3112#128 :: []
      ∧ decode 0x3112#128 = .command (.ldpc .x0 0x31#8) := by decide

theorem witness_BadWordWritesOnlyRkind :
    (given busy (.command 0x50#128)).input = .command 0x50#128 :: [] ∧ decode 0x50#128 = .bad .nonzeroDeadField := by decide

theorem witness_BlockHoldsItsStateBetweenCommands :
    busy.input = [] ∧ (given busy (.read (.x .x1))).input = .read (.x .x1) :: [] := by decide

/-- Both clauses: a reset that clears V[0], V[1], FAULT and FCAUSE, between commands and during one. -/
theorem witness_ResetClearsTheBlockAndNothingElseDoes :
    (given busy .reset).input = .reset :: []
      ∧ (∃ t, step (given busy .reset) = .next t ∧ busy.v0 = true ∧ t.v0 = false ∧ busy.v1 = true ∧ t.v1 = false
          ∧ busy.fault = true ∧ t.fault = false ∧ t.fcause ≠ busy.fcause)
      ∧ ∃ t, step (given busy (.resetDuring 0x01#128)) = .next t ∧ busy.v0 = true ∧ t.v0 = false :=
  ⟨rfl, ⟨_, rfl, by decide⟩, ⟨_, rfl, by decide⟩⟩

theorem witness_EveryStepKeepsTheInvariant :
    ∃ t, (given busy (.command 0x03#128)).Inv ∧ step (given busy (.command 0x03#128)) = .next t :=
  ⟨_, given_inv busy_inv, rfl⟩

/-- Two different states that agree wherever a register is loaded, and a step that reads the loaded one. -/
theorem witness_UnloadedContentsAreNeverObservable :
    ∃ t, (given (withX0 vecA) (.command 0x04#128)).SameButUnloaded { given (withX0 vecA) (.command 0x04#128) with x1 := vecB }
      ∧ vecB ≠ (withX0 vecA).x1 ∧ step (given (withX0 vecA) (.command 0x04#128)) = .next t :=
  ⟨_, { x0 := fun _ => rfl, x1 := fun h => (nomatch h), v0 := rfl, v1 := rfl, rkind := rfl, flag := rfl, cnt := rfl,
        fault := rfl, fcause := rfl, input := rfl, observed := rfl, midReads := rfl }, by decide, rfl⟩

theorem witness_EveryCommandWordHasExactlyOneOutcome :
    (given busy (.command 0x07#128)).input = .command 0x07#128 :: [] := by decide

theorem witness_CommandsOnLoadedRegistersComplete :
    (∀ d ∈ readsOf .incl, busy.v d = true) ∧ (∀ d ∈ readsOf (.ldpc .x1 0x31#8), busy.v d = true)
      ∧ ∀ d ∈ readsOf (.shl 96), (withX0 vecA).v d = true := by decide

/-- All three clauses; in the second, both when the command reads X[0] too and when it does not. -/
theorem witness_FirstUnloadedRegisterRaisesUninit :
    (.x0 ∈ readsOf .lt ∧ State.reset.v0 = false)
      ∧ (.x1 ∈ readsOf .lt ∧ (withX0 vecA).v1 = false ∧ (.x0 ∈ readsOf .lt → (withX0 vecA).v0 = true))
      ∧ (.x1 ∈ readsOf (.ldpc .x1 0x31#8) ∧ State.reset.v1 = false
          ∧ (.x0 ∈ readsOf (.ldpc .x1 0x31#8) → State.reset.v0 = true))
      ∧ (given State.reset (.command 0x21#128)).input = .command 0x21#128 :: []
      ∧ decode 0x21#128 = .bad .nonzeroDeadField := by decide

/-- A second UNINIT while FAULT = 1, a command word run while FAULT = 1, and a reset. -/
theorem witness_CommandsAfterAFaultRunAndKeepTheFirstCause :
    (∃ t, { State.reset with fault := true, fcause := .uninit1 }.fault = true
        ∧ exec .or { State.reset with fault := true, fcause := .uninit1 } = .next t ∧ t.rkind = .fault)
      ∧ (busy.fault = true ∧ ∃ t, step (given busy (.command 0x04#128)) = .next t)
      ∧ (given busy .reset).input = .reset :: [] :=
  ⟨⟨_, rfl, rfl, rfl⟩, ⟨rfl, _, rfl⟩, rfl⟩

/-- NOT writes X[0] only; two states that differ in X[1] agree on what NOT reads, and two that differ in the words of X[0]
and not in its count agree on what POPCNT and LE read. -/
theorem witness_CommandsReadAndWriteOnlyTheirRegisters :
    (∃ t, exec .not busy = .next t ∧ writesOf .not ≠ some .x1 ∧ .not ∉ predicates ∧ Instr.not ≠ .popcnt)
      ∧ (∀ d ∈ readsOf .not, busy.x d = (withX0 vecA).x d ∧ busy.v d = (withX0 vecA).v d)
      ∧ (∀ d ∈ readsOf .popcnt, ((withX0 vec1100).x d).pcnt = ((withX0 vec0011).x d).pcnt
          ∧ (withX0 vec1100).v d = (withX0 vec0011).v d)
      ∧ ∀ d ∈ readsOf .le, ((withBoth vec1100 vecA).x d).pcnt = ((withBoth vec0011 vecA).x d).pcnt
          ∧ (withBoth vec1100 vecA).v d = (withBoth vec0011 vecA).v d :=
  ⟨⟨_, rfl, by decide⟩, by decide, by decide, by decide⟩

/-- FLAG changed by LT, CNT changed by POPCNT. -/
theorem witness_FlagAndCntKeepTheirValues :
    (∃ t, step (given busy (.command 0x08#128)) = .next t ∧ t.flag ≠ busy.flag)
      ∧ ∃ t, step (given (withX0 vecA) (.command 0x07#128)) = .next t ∧ t.cnt ≠ (withX0 vecA).cnt :=
  ⟨⟨_, rfl, by decide⟩, ⟨_, rfl, by decide⟩⟩

theorem witness_ReadPortsReturnStateWithoutSideEffects :
    busy.v0 = true ∧ busy.v1 = true ∧ State.reset.v0 = false ∧ State.reset.v1 = false := by decide

theorem witness_LdpcShiftsOneCharacterIn :
    busy.v0 = true ∧ busy.v1 = true ∧ (withX0 vecA).v1 = false ∧ State.reset.v0 = false := by decide

set_option maxRecDepth 16384 in
/-- Bit 0 and bit 95 of a text of 96 characters, and bit 95 of a shorter text. -/
theorem witness_FromBitPatternReadsRightToLeft :
    (fromBitPattern (0x31#8 :: List.replicate 95 0x30#8)).val.getLsbD 95 = true
      ∧ (fromBitPattern (List.replicate 95 0x30#8 ++ [0x31#8])).val.getLsbD 0 = true
      ∧ (fromBitPattern (List.replicate 95 0x31#8)).val.getLsbD 95 = false := by decide

/-- The hypotheses of each clause, at the length where positions begin to be dropped. -/
theorem witness_PatternCornerCases :
    (List.replicate 96 0x31#8).length = 96
      ∧ (List.replicate 95 0x31#8).length ≤ 95
      ∧ 0x58#8 ≠ Config.oneChar ∧ 0xb1#8 ≠ Config.oneChar
      ∧ ∀ c ∈ [0x30#8, 0x58#8], c ≠ Config.oneChar := by decide

/-- Every clause of the bitwise commands' statements has its case: operands loaded, X[0] or X[1] unloaded, exact counts, and
the operands of the corner cases. -/
theorem witness_BitwiseCommands :
    (busy.v0 = true ∧ busy.v1 = true) ∧ State.reset.v0 = false
      ∧ ((withX0 vecA).v0 = true ∧ (withX0 vecA).v1 = false)
      ∧ vecA.countExact ∧ (vecZ.head = 0#64 ∧ vecZ.tail = 0#32)
      ∧ (vecO.head = BitVec.allOnes 64 ∧ vecO.tail = BitVec.allOnes 32) :=
  ⟨by decide, rfl, by decide, vecA_exact, by decide, by decide⟩

theorem witness_AndIsLaneWiseAnd :
    LeavesX0 .and (operands State.reset vecA vecZ) vecZ ∧ LeavesX0 .and (operands State.reset vecA vecO) vecA :=
  ⟨⟨_, rfl, by decide⟩, ⟨_, rfl, by decide⟩⟩

theorem witness_OrIsLaneWiseOr :
    LeavesX0 .or (operands State.reset vecA vecZ) vecA ∧ LeavesX0 .or (operands State.reset vecA vecO) vecO :=
  ⟨⟨_, rfl, by decide⟩, ⟨_, rfl, by decide⟩⟩

theorem witness_XorIsLaneWiseXor :
    LeavesX0 .xor (operands State.reset vecA vecA) vecZ ∧ LeavesX0 .xor (operands State.reset vecA vecZ) vecA :=
  ⟨⟨_, rfl, by decide⟩, ⟨_, rfl, by decide⟩⟩

theorem witness_NotComplementsBothWords :
    ((withX0 vecA).v0 = true ∧ (withX0 vecA).x0.countExact)
      ∧ ((withX0 vecZ).v0 = true ∧ (withX0 vecZ).x0.head = 0#64 ∧ (withX0 vecZ).x0.tail = 0#32)
      ∧ State.reset.v0 = false :=
  ⟨⟨rfl, vecA_exact⟩, by decide, rfl⟩

/-- Two operands that agree in bit 0 and not in bit 4. -/
theorem witness_BitwiseLawsHoldOfTheCommands :
    vecA.val.getLsbD 0 = vecX.val.getLsbD 0 ∧ vecB.val.getLsbD 0 = vecO.val.getLsbD 0
      ∧ vecA.val.getLsbD 95 = vecZ.val.getLsbD 95 := by decide

/-- The amounts of the corner cases: the largest with a word, and both sides of 96. -/
theorem witness_ShlShiftsLeftAcrossTheWords :
    4294967295 < 2 ^ 32 ∧ (withX0 vecA).v0 = true ∧ State.reset.v0 = false ∧ (withX0 vecA).x0.countExact
      ∧ LeavesX0 (.shl 96) (withX0 vecA) vecZ
      ∧ LeavesX0 (.shl 95) (withX0 vecX) { head := 0x8000000000000000#64, tail := 0#32, pcnt := 1#7 } :=
  ⟨by decide, rfl, rfl, vecA_exact, ⟨_, rfl, by decide⟩, ⟨_, rfl, by decide⟩⟩

theorem witness_ShrShiftsRightAcrossTheWords :
    4294967295 < 2 ^ 32 ∧ (withX0 vecA).v0 = true ∧ State.reset.v0 = false ∧ (withX0 vecA).x0.countExact
      ∧ LeavesX0 (.shr 96) (withX0 vecA) vecZ
      ∧ LeavesX0 (.shr 95) (withX0 vecX) { head := 0#64, tail := 1#32, pcnt := 1#7 } :=
  ⟨by decide, rfl, rfl, vecA_exact, ⟨_, rfl, by decide⟩, ⟨_, rfl, by decide⟩⟩

theorem witness_TwoWordLeftShiftRefinesShl : (withX0 vecX).v0 = true := rfl

theorem witness_TwoWordRightShiftRefinesShr : (withX0 vecX).v0 = true := rfl

theorem witness_ShifterLawsHoldOfTheCommands : (withX0 vecA).v0 = true ∧ (withX0 vecA).x0.countExact := ⟨rfl, vecA_exact⟩

theorem witness_SaturatedShiftLosesNothing : 2 ^ 32 ≤ 4294967296 := by decide

theorem witness_PopcntWritesTheCachedCount :
    (withX0 vecO).v0 = true ∧ (withX0 vecO).x0.countExact ∧ State.reset.v0 = false := ⟨rfl, vecO_exact, rfl⟩

theorem witness_PopcountLaws : vecA.countExact ∧ vecB.countExact ∧ vecZ.countExact ∧ vecO.countExact :=
  ⟨vecA_exact, vecB_exact, vecZ_exact, vecO_exact⟩

/-- Every clause of the predicates' statements has its case. -/
theorem witness_Predicates :
    (busy.v0 = true ∧ busy.v1 = true) ∧ State.reset.v0 = false
      ∧ ((withX0 vecA).v0 = true ∧ (withX0 vecA).v1 = false) ∧ vec1100.pcnt = vec0011.pcnt := by decide

theorem witness_BeqComparesBitPatterns :
    vecA.countExact ∧ LeavesFlag .beq (operands State.reset vecA vecA) true := ⟨vecA_exact, _, rfl, by decide⟩

theorem witness_OrderingLawsHoldOfTheCommands :
    LeavesFlag .le (operands State.reset vecZ vecB) true ∧ LeavesFlag .le (operands State.reset vecB vecA) true :=
  ⟨⟨_, rfl, by decide⟩, ⟨_, rfl, by decide⟩⟩

/-- The operands of each corner case, INCL true and false. -/
theorem witness_InclTestsSubsetInclusion :
    (vecZ.head = 0#64 ∧ vecZ.tail = 0#32) ∧ (vecO.head = BitVec.allOnes 64 ∧ vecO.tail = BitVec.allOnes 32)
      ∧ LeavesFlag .incl (operands State.reset vecA vecO) false ∧ LeavesFlag .incl (operands State.reset vecZ vecA) false :=
  ⟨by decide, by decide, ⟨_, rfl, by decide⟩, ⟨_, rfl, by decide⟩⟩

theorem witness_InclusionLawsHoldOfTheCommand :
    vecO.countExact ∧ vecA.countExact ∧ LeavesFlag .incl (operands State.reset vecO vecA) true
      ∧ LeavesFlag .incl (operands State.reset vecA vecZ) true ∧ LeavesFlag .incl (operands State.reset vecA vecA) true :=
  ⟨vecO_exact, vecA_exact, ⟨_, rfl, by decide⟩, ⟨_, rfl, by decide⟩, ⟨_, rfl, by decide⟩⟩

set_option maxRecDepth 16384 in
theorem witness_RenderedValueLoadsBackEqual :
    (withX0 vecA).v0 = true ∧ (textCodes (render (withX0 vecA).x0.val)).isSome = true := by decide

/-- Texts that have codes, an operator of each kind, and the smallest and a saturated shift amount. -/
theorem witness_TestLineReportsTheOperatorsResult :
    textCodes "10X1".toList = some [0x31#8, 0x30#8, 0x58#8, 0x31#8] ∧ textCodes "".toList = some []
      ∧ "includes".toList ∈ binaryTokens ∧ "+".toList ∉ knownTokens
      ∧ decimalNumber "0".toList = some 0 ∧ decimalNumber "4294967296".toList = some 4294967296 := by decide

theorem witness_KeepingTheLoadOrderNeverFaults :
    (∀ i ∈ [Instr.ldpz .x0, .ldpc .x0 0x31#8, .not, .ldw .x1 1#64 2#32, .and], i.wf = true)
      ∧ keepsLoadOrder false false [.ldpz .x0, .ldpc .x0 0x31#8, .not, .ldw .x1 1#64 2#32, .and] = true
      ∧ keepsLoadOrder false false [.ldpz .x0, .and] = false := by decide

end Sys2Proof.Tests
end

section
/-! SUPPORT. The writes of a command as a value of their own, apart from the state they go to: which registers that value
depends on, and what it changes where it is put (10_state.md R26). -/

namespace Sys2Proof.Machine

open Sys2Proof.Claim

/-! ## What a command writes -/

/-- The result a completing command leaves: a content for X[0], a FLAG, a CNT, or a content loaded into X[d]. -/
inductive Written where
  | bits (b : BitString)
  | flag (f : Bool)
  | count (c : Count)
  | loaded (d : Reg) (b : BitString)

/-- The RKIND that goes with a result (10_state.md R27). -/
def Written.kind : Written → RKind
  | .bits _ => .bits
  | .flag _ => .bool
  | .count _ => .count
  | .loaded _ _ => .loaded

/-- The bitstring register a result goes to. -/
def Written.register : Written → Option Reg
  | .bits _ => some .x0
  | .flag _ => none
  | .count _ => none
  | .loaded d _ => some d

/-- A result put into a state. -/
def State.put (s : State) : Written → State
  | .bits b => s.putBits b
  | .flag f => s.putFlag f
  | .count c => s.putCount c
  | .loaded d b => s.putLoaded d b

/-- The result of each command, from the contents of the registers. -/
def writtenBy (i : Instr) (x : Reg → BitString) : Written :=
  match i with
  | .and => .bits (mk ((x .x0).head &&& (x .x1).head) ((x .x0).tail &&& (x .x1).tail))
  | .or => .bits (mk ((x .x0).head ||| (x .x1).head) ((x .x0).tail ||| (x .x1).tail))
  | .xor => .bits (mk ((x .x0).head ^^^ (x .x1).head) ((x .x0).tail ^^^ (x .x1).tail))
  | .not => .bits (mk (~~~(x .x0).head) (~~~(x .x0).tail))
  | .shl n => .bits (mk96 (shlN (x .x0).val n))
  | .shr n => .bits (mk96 (shrN (x .x0).val n))
  | .popcnt => .count (x .x0).pcnt
  | .lt => .flag (flagLt (x .x0) (x .x1))
  | .gt => .flag (flagGt (x .x0) (x .x1))
  | .le => .flag (flagLe (x .x0) (x .x1))
  | .ge => .flag (flagGe (x .x0) (x .x1))
  | .eq => .flag (flagEq (x .x0) (x .x1))
  | .ne => .flag (flagNe (x .x0) (x .x1))
  | .incl => .flag (flagIncl (x .x0) (x .x1))
  | .beq => .flag (flagBeq (x .x0) (x .x1))
  | .ldw d head tail => .loaded d (mk head tail)
  | .ldpz d => .loaded d (mk 0#64 0#32)
  | .ldpc d ch => .loaded d (mk96 (shiftInChar (x d).val ch))

/-- The writes of a command are its result put into the state. -/
theorem effectOf_eq_put (i : Instr) (s : State) : effectOf i s = s.put (writtenBy i s.x) := by cases i <;> rfl

@[simp] theorem kind_writtenBy (i : Instr) (x : Reg → BitString) : (writtenBy i x).kind = kindOf i := by cases i <;> rfl

@[simp] theorem register_writtenBy (i : Instr) (x : Reg → BitString) : (writtenBy i x).register = writesOf i := by
  cases i <;> rfl

/-- The predicates are the commands of kind BOOL (10_state.md R29). -/
theorem mem_predicates_iff (i : Instr) : i ∈ predicates ↔ kindOf i = .bool := by cases i <;> simp [predicates, kindOf]

/-- POPCNT is the only command of kind COUNT. -/
theorem kindOf_eq_count_iff (i : Instr) : kindOf i = .count ↔ i = .popcnt := by cases i <;> simp [kindOf]

/-! ## What a result depends on -/

/-- The result of a command depends on no register but those of its row (10_state.md R26). -/
theorem writtenBy_dependsOn_reads (i : Instr) : DependsOn (writtenBy i) {d | d ∈ readsOf i} := by
  intro x y h
  have at_read (d : Reg) (hd : d ∈ readsOf i) : x d = y d := h d hd
  cases i with
  | ldw d head tail | ldpz d => rfl
  | ldpc d ch => simp only [writtenBy, at_read d List.mem_cons_self]
  | not | shl n | shr n | popcnt => simp only [writtenBy, at_read .x0 (by decide : Reg.x0 ∈ accumulatorOnly)]
  | _ =>
    simp only [writtenBy, at_read .x0 (by decide : Reg.x0 ∈ bothRegisters), at_read .x1 (by decide : Reg.x1 ∈ bothRegisters)]

/-- The rows that read nothing but counts (10_state.md R26). -/
def countingRows : List Instr := [.lt, .gt, .le, .ge, .eq, .ne, .popcnt]

/-- The result of a counting row depends on nothing but the counts of the registers of its row. -/
theorem writtenBy_congr_counts {i : Instr} (hi : i ∈ countingRows) {x y : Reg → BitString}
    (h : ∀ d ∈ readsOf i, (x d).pcnt = (y d).pcnt) : writtenBy i x = writtenBy i y := by
  cases i with
  | popcnt => simp only [writtenBy, h .x0 (by decide)]
  | lt | gt | le | ge | eq | ne =>
    simp only [writtenBy, flagLt, flagGt, flagLe, flagGe, flagEq, flagNe, h .x0 (by decide), h .x1 (by decide)]
  | _ => simp [countingRows] at hi

/-! ## What a result changes -/

section Put

variable (s : State) (w : Written) {d : Reg}

@[simp] theorem State.put_rkind : (s.put w).rkind = w.kind := by cases w <;> rfl

theorem State.put_flag_of_kind_ne (h : w.kind ≠ .bool) : (s.put w).flag = s.flag := by
  cases w with
  | flag f => exact absurd rfl h
  | _ => simp [State.put]

theorem State.put_cnt_of_kind_ne (h : w.kind ≠ .count) : (s.put w).cnt = s.cnt := by
  cases w with
  | count c => exact absurd rfl h
  | _ => simp [State.put]

/-- A result leaves every register alone but its own, valid bit included. -/
theorem State.put_register_other (h : w.register ≠ some d) : (s.put w).x d = s.x d ∧ (s.put w).v d = s.v d := by
  have other {e : Reg} (he : some e ≠ some d) : d ≠ e := fun hde => he (congrArg some hde.symm)
  cases w with
  | flag f => simp [State.put]
  | count c => simp [State.put]
  | bits b => simp [State.put, writeX_x_other _ _ _ (other h), writeX_v_other _ _ _ (other h)]
  | loaded e b => simp [State.put, writeX_x_other _ _ _ (other h), writeX_v_other _ _ _ (other h)]

variable (u : State)

theorem State.put_flag_congr (h : w.kind = .bool) : (s.put w).flag = (u.put w).flag := by
  cases w with
  | flag f => rfl
  | _ => cases h

theorem State.put_cnt_congr (h : w.kind = .count) : (s.put w).cnt = (u.put w).cnt := by
  cases w with
  | count c => rfl
  | _ => cases h

/-- The register a result goes to holds the result, whatever the state was. -/
theorem State.put_register_congr (h : w.register = some d) :
    (s.put w).x d = (u.put w).x d ∧ (s.put w).v d = (u.put w).v d := by
  cases w with
  | flag f => cases h
  | count c => cases h
  | bits b => cases h; simp [State.put]
  | loaded e b => cases h; simp [State.put]

end Put

/-! ## Two runs of one command -/

/-- Everything a command can do, its writes being a result put into the state. -/
theorem exec_cases_put {i : Instr} {s t : State} (h : exec i s = .next t) :
    t = s.put (writtenBy i s.x) ∨ ∃ d, t = s.raiseUninit d := by
  rcases exec_cases h with ⟨-, rfl⟩ | ⟨d, -, -, -, rfl⟩
  · exact .inl (effectOf_eq_put i s)
  · exact .inr ⟨d, rfl⟩

theorem firstUnloaded_congr {s u : State} {ds : List Reg} (h : ∀ d ∈ ds, s.v d = u.v d) :
    s.firstUnloaded ds = u.firstUnloaded ds := by
  induction ds with
  | nil => rfl
  | cons d ds ih =>
    rw [firstUnloaded_cons, firstUnloaded_cons, h d List.mem_cons_self, ih fun e he => h e (List.mem_cons_of_mem d he)]

/-- From two states whose required registers are equally valid and give one result, a command puts that result into both, or
raises the same UNINIT in both. -/
theorem exec_congr {i : Instr} {s u : State} (hv : ∀ d ∈ readsOf i, s.v d = u.v d) (hw : writtenBy i s.x = writtenBy i u.x) :
    (exec i s = .next (s.put (writtenBy i s.x)) ∧ exec i u = .next (u.put (writtenBy i s.x))) ∨
      ∃ d, exec i s = .next (s.raiseUninit d) ∧ exec i u = .next (u.raiseUninit d) := by
  have hf := firstUnloaded_congr hv
  simp only [exec_eq, effectOf_eq_put, ← hw]
  cases hs : s.firstUnloaded (readsOf i) with
  | none =>
    exact .inl ⟨requireThen_loaded (firstUnloaded_eq_none.mp hs), requireThen_loaded (firstUnloaded_eq_none.mp (hf ▸ hs))⟩
  | some d => exact .inr ⟨d, requireThen_unloaded hs, requireThen_unloaded (hf ▸ hs)⟩

/-! ## 10_state.md R26 and R28 -/

/-- The write frame of a command (10_state.md R26). -/
theorem exec_frame {i : Instr} {s t : State} (h : exec i s = .next t) :
    (∀ d, writesOf i ≠ some d → t.x d = s.x d ∧ t.v d = s.v d)
      ∧ (i ∉ predicates → t.flag = s.flag) ∧ (i ≠ .popcnt → t.cnt = s.cnt)
      ∧ (t.rkind = kindOf i ∨ t.rkind = .fault) := by
  rcases exec_cases_put h with rfl | ⟨d, rfl⟩
  · refine ⟨fun d hd => ?_, fun hi => ?_, fun hi => ?_, .inl (by simp)⟩
    · exact s.put_register_other _ (by simpa using hd)
    · exact s.put_flag_of_kind_ne _ (by simpa [← mem_predicates_iff] using hi)
    · exact s.put_cnt_of_kind_ne _ (by simpa [kindOf_eq_count_iff] using hi)
  · simp

/-- What two runs of one command leave alike when they give one result (10_state.md R26). -/
theorem exec_agree {i : Instr} {s u : State} (hv : ∀ d ∈ readsOf i, s.v d = u.v d) (hw : writtenBy i s.x = writtenBy i u.x) :
    ∃ t t', exec i s = .next t ∧ exec i u = .next t' ∧ t.rkind = t'.rkind
      ∧ (t.rkind = .bool → t.flag = t'.flag)
      ∧ (t.rkind = .count → t.cnt = t'.cnt)
      ∧ (∀ d, writesOf i = some d → t.rkind ≠ .fault → t.x d = t'.x d ∧ t.v d = t'.v d) := by
  rcases exec_congr hv hw with ⟨hs, hu⟩ | ⟨d, hs, hu⟩
  · refine ⟨_, _, hs, hu, by simp, fun hk => ?_, fun hk => ?_, fun d hd _ => ?_⟩
    · exact s.put_flag_congr _ u (by simpa using hk)
    · exact s.put_cnt_congr _ u (by simpa using hk)
    · exact s.put_register_congr _ u (by simpa using hd)
  · exact ⟨_, _, hs, hu, by simp⟩

/-- Settles O21: the write frame of every command, and the agreement of two runs whose result is the same, because what the
row reads is the same, or because of a counting row the counts are. -/
theorem commandsReadAndWriteOnlyTheirRegisters : Obligations.CommandsReadAndWriteOnlyTheirRegisters := by
  unfold Obligations.CommandsReadAndWriteOnlyTheirRegisters
  refine ⟨fun i s t h => exec_frame h, fun i s u h => ?_, fun i hi s u h => ?_⟩
  · exact exec_agree (fun d hd => (h d hd).2) (writtenBy_dependsOn_reads i fun d hd => (h d hd).1)
  · obtain ⟨t, t', hs, hu, hk, hflag, hcnt, -⟩ :=
      exec_agree (fun d hd => (h d hd).2) (writtenBy_congr_counts hi fun d hd => (h d hd).1)
    exact ⟨t, t', hs, hu, hk, hflag, hcnt⟩

/-- A command that changes FLAG is a predicate that completed (10_state.md R28, R29). -/
theorem exec_flag_ne {i : Instr} {s t : State} (h : exec i s = .next t) (hne : t.flag ≠ s.flag) :
    t.rkind = .bool ∧ i ∈ predicates := by
  rcases exec_cases_put h with rfl | ⟨d, rfl⟩
  · have hk : kindOf i = .bool := by
      by_contra hk
      exact hne (s.put_flag_of_kind_ne _ (by simpa using hk))
    exact ⟨by simp [hk], (mem_predicates_iff i).mpr hk⟩
  · exact absurd rfl hne

/-- A command that changes CNT is a POPCNT that completed (10_state.md R28). -/
theorem exec_cnt_ne {i : Instr} {s t : State} (h : exec i s = .next t) (hne : t.cnt ≠ s.cnt) :
    t.rkind = .count ∧ i = .popcnt := by
  rcases exec_cases_put h with rfl | ⟨d, rfl⟩
  · have hk : kindOf i = .count := by
      by_contra hk
      exact hne (s.put_cnt_of_kind_ne _ (by simpa using hk))
    exact ⟨by simp [hk], (kindOf_eq_count_iff i).mp hk⟩
  · exact absurd rfl hne

/-- Settles O22: a BAD word changes neither field, and a command that changes one is of its kind and completed. -/
theorem flagAndCntKeepTheirValues : Obligations.FlagAndCntKeepTheirValues := by
  unfold Obligations.FlagAndCntKeepTheirValues
  intro s t w rest hin h
  rw [step_input hin, runInput_command] at h
  rcases runWord_cases h with ⟨i, hd, hexec⟩ | ⟨r, -, rfl⟩
  · refine ⟨fun hne => ?_, fun hne => ?_⟩
    · obtain ⟨hk, hi⟩ := exec_flag_ne hexec hne
      exact ⟨hk, i, hi, hd⟩
    · obtain ⟨hk, rfl⟩ := exec_cnt_ne hexec hne
      exact ⟨hk, hd⟩
  · simp

end Sys2Proof.Machine
end

section
/-! SUPPORT. What the read ports answer and what a read does (10_state.md R33). -/

namespace Sys2Proof.Machine

variable {s : State} {d : Reg}

theorem readPort_loaded (h : s.v d = true) : s.readPort (.x d) = .x d (some ((s.x d).val, (s.x d).pcnt)) := by
  simp [State.readPort, State.readX, h]

theorem readPort_unloaded (h : s.v d = false) : s.readPort (.x d) = .x d none := by
  simp [State.readPort, State.readX, h]

/-- A read strobe takes the input and records the port's answer, and that is all. -/
theorem step_read (s : State) (p : ReadPort) (rest : List HostInput) :
    step { s with input := .read p :: rest } =
      .next { s with input := rest, observed := s.readPort p :: s.observed } := by
  rw [step_input rfl, runInput_read]
  cases p with
  | x d => cases d <;> rfl
  | status => rfl

/-- Settles O24: a read records the port's answer and nothing else, and V[d] decides whether a register port answers a value. -/
theorem readPortsReturnStateWithoutSideEffects : Obligations.ReadPortsReturnStateWithoutSideEffects := by
  unfold Obligations.ReadPortsReturnStateWithoutSideEffects
  intro s rest
  simp only [step_read]
  refine ⟨fun h => ?_, fun h => ?_, fun h => ?_, fun h => ?_, rfl⟩
  · rw [readPort_loaded (d := .x0) h]; rfl
  · rw [readPort_loaded (d := .x1) h]; rfl
  · rw [readPort_unloaded (d := .x0) h]
  · rw [readPort_unloaded (d := .x1) h]

end Sys2Proof.Machine
end

section
/-! SUPPORT. The invariant of the block under every update of the state, and so under every step (10_state.md R21, R27). -/

namespace Sys2Proof.Machine

/-! ## The invariant, one clause for both registers and one for RKIND -/

/-- What an RKIND says of the other fields (10_state.md R27). -/
def State.kindSays (s : State) : RKind → Prop
  | .none => s.v0 = false ∧ s.v1 = false ∧ s.flag = false ∧ s.cnt = 0#7 ∧ s.fault = false
  | .bits => s.v0 = true
  | .bool => s.v0 = true ∧ s.v1 = true
  | .count => s.v0 = true ∧ s.cnt = s.x0.pcnt
  | .loaded => s.v0 = true ∨ s.v1 = true
  | .bad => True
  | .fault => s.fault = true

variable {s t : State} {d : Reg} {b : BitString}

/-- The invariant from its parts: of the clauses about RKIND only the one of the present RKIND says anything. -/
theorem State.Inv.of_parts (count : ∀ d, s.v d = true → (s.x d).countExact) (cntLegal : s.cnt.toNat ≤ 96)
    (causeIffFault : s.fcause = .none ↔ s.fault = false) (kind : s.kindSays s.rkind)
    (observedExact : ∀ answer ∈ s.observed, answer.countExact) : s.Inv where
  count0 := count .x0
  count1 := count .x1
  cntLegal := cntLegal
  causeIffFault := causeIffFault
  noneAfterReset h := by rwa [h] at kind
  bitsLoaded h := by rwa [h] at kind
  boolLoaded h := by rwa [h] at kind
  countOfX0 h := by rwa [h] at kind
  loadedSome h := by rwa [h] at kind
  faultSet h := by rwa [h] at kind
  observedExact := observedExact

theorem State.Inv.count (h : s.Inv) (d : Reg) : s.v d = true → (s.x d).countExact := by
  cases d with
  | x0 => exact h.count0
  | x1 => exact h.count1

/-! ## Commands -/

/-- After a register is written with an exact count, every loaded register's count is exact. -/
theorem State.Inv.count_writeX (h : s.Inv) (hb : b.countExact) (d e : Reg) (he : (s.writeX d b).v e = true) :
    ((s.writeX d b).x e).countExact := by
  by_cases hed : e = d
  · subst hed
    rwa [writeX_x_same]
  · rw [writeX_v_other _ _ _ hed] at he
    rw [writeX_x_other _ _ _ hed]
    exact h.count e he

theorem State.Inv.putBits (h : s.Inv) (hb : b.countExact) : (s.putBits b).Inv :=
  .of_parts (by simpa using h.count_writeX hb .x0) (by simpa using h.cntLegal) (by simpa using h.causeIffFault) rfl
    (by simpa using h.observedExact)

theorem State.Inv.putLoaded (h : s.Inv) (hb : b.countExact) : (s.putLoaded d b).Inv := by
  refine .of_parts (by simpa using h.count_writeX hb d) (by simpa using h.cntLegal) (by simpa using h.causeIffFault) ?_
    (by simpa using h.observedExact)
  cases d with
  | x0 => exact .inl rfl
  | x1 => exact .inr rfl

theorem State.Inv.putFlag (h : s.Inv) (h0 : s.v0 = true) (h1 : s.v1 = true) (f : Bool) : (s.putFlag f).Inv :=
  .of_parts (by simpa using h.count) h.cntLegal h.causeIffFault ⟨h0, h1⟩ h.observedExact

/-- The count POPCNT copies is legal because it is the exact count of a loaded register. -/
theorem State.Inv.putCount (h : s.Inv) (h0 : s.v0 = true) : (s.putCount s.x0.pcnt).Inv :=
  .of_parts (by simpa using h.count) (h.count0 h0).le h.causeIffFault ⟨h0, rfl⟩ h.observedExact

/-- FCAUSE is set with FAULT: it keeps a first cause, which is not NONE, or takes that of the register. -/
theorem State.Inv.raiseUninit (h : s.Inv) (d : Reg) : (s.raiseUninit d).Inv := by
  have hcause : (s.raiseUninit d).fcause ≠ .none := by
    cases hf : s.fault with
    | true => simp [hf, h.causeIffFault]
    | false => cases d <;> simp [hf, causeOf]
  exact .of_parts (by simpa using h.count) h.cntLegal (by simpa using hcause) rfl h.observedExact

theorem State.Inv.rejectBad (h : s.Inv) : s.rejectBad.Inv :=
  .of_parts (by simpa using h.count) h.cntLegal h.causeIffFault trivial h.observedExact

/-- The writes of a command on loaded registers keep the invariant. -/
theorem State.Inv.effectOf {i : Instr} (h : s.Inv) (loaded : ∀ d ∈ readsOf i, s.v d = true) :
    (Machine.effectOf i s).Inv := by
  rcases effectOf_cases i s with ⟨_, _, he, -⟩ | ⟨f, he, hr⟩ | ⟨he, hr⟩ | ⟨d, _, _, he, -⟩ <;> rw [he]
  · exact h.putBits (mk_countExact _ _)
  · rw [hr] at loaded
    exact h.putFlag (loaded .x0 (by decide)) (loaded .x1 (by decide)) f
  · rw [hr] at loaded
    exact h.putCount (loaded .x0 (by decide))
  · exact h.putLoaded (mk_countExact _ _)

theorem State.Inv.exec {i : Instr} (h : s.Inv) (hexec : Machine.exec i s = .next t) : t.Inv := by
  rcases exec_cases hexec with ⟨hloaded, rfl⟩ | ⟨d, -, -, -, rfl⟩
  · exact h.effectOf (firstUnloaded_eq_none.mp hloaded)
  · exact h.raiseUninit d

theorem State.Inv.runWord {w : CmdWord} (h : s.Inv) (hrun : Machine.runWord w s = .next t) : t.Inv := by
  rcases runWord_cases hrun with ⟨i, -, hexec⟩ | ⟨r, -, rfl⟩
  · exact h.exec hexec
  · exact h.rejectBad

/-! ## Ports and reset -/

/-- No read port answers a stale count (70_reset_and_hazards.md R155). -/
theorem State.Inv.readPort_countExact (h : s.Inv) (p : ReadPort) : (s.readPort p).countExact := by
  cases p with
  | status => trivial
  | x d =>
    cases hv : s.v d with
    | false => rw [readPort_unloaded hv]; trivial
    | true => rw [readPort_loaded hv]; exact (h.count d hv).trans (s.x d).popcount_val.symm

/-- What the host records, and what it does next, matter to the invariant only by the exactness of the answers. -/
theorem State.Inv.withHost (h : s.Inv) {observed : List PortValue} (hobs : ∀ answer ∈ observed, answer.countExact)
    (input : List HostInput) (midReads : Nat) :
    { s with input := input, observed := observed, midReads := midReads }.Inv :=
  { h with observedExact := hobs }

theorem State.Inv.observe (h : s.Inv) (p : ReadPort) : (s.observe p).Inv :=
  h.withHost (List.forall_mem_cons.mpr ⟨h.readPort_countExact p, h.observedExact⟩) _ _

/-- Reads made during a command answer from one of two states whose counts are exact. -/
theorem State.Inv.observeDuring {before after : State} (hbefore : before.Inv) (hafter : after.Inv) (ports : List ReadPort)
    (h : t.Inv) : (Machine.observeDuring before after ports t).Inv := by
  induction ports generalizing t with
  | nil => exact h
  | cons p ports ih =>
    have hseen : (if Config.midReadSeesNew t.midReads then after else before).Inv := by
      split
      · exact hafter
      · exact hbefore
    exact ih (h.withHost (List.forall_mem_cons.mpr ⟨hseen.readPort_countExact p, h.observedExact⟩) _ _)

theorem State.Inv.applyReset (h : s.Inv) : s.applyReset.Inv :=
  .of_parts (fun d hv => by cases d <;> cases hv) (by simp) (by simp) ⟨rfl, rfl, rfl, rfl, rfl⟩ h.observedExact

/-! ## Steps -/

/-- Bytes that a next state follows carried a whole word, which ran. -/
theorem runBytes_cases {bs : List Byte} (h : runBytes bs s = .next t) :
    ∃ w, wordOfBytes bs = some w ∧ runWord w s = .next t := by
  unfold runBytes at h
  cases hw : wordOfBytes bs with
  | none => rw [hw] at h; cases h
  | some w => rw [hw] at h; exact ⟨w, rfl, h⟩

/-- A command with reads during it is the command, then the reads' records. -/
theorem runWordWithReads_cases {w : CmdWord} {ports : List ReadPort} (h : runWordWithReads w ports s = .next t) :
    ∃ u, runWord w s = .next u ∧ t = observeDuring s u ports u := by
  obtain ⟨u, hu⟩ := runWord_next w s
  unfold runWordWithReads at h
  rw [hu] at h
  cases h
  exact ⟨u, hu, rfl⟩

/-- A command with reset during it is the command, then reset. -/
theorem runWordThenReset_cases {w : CmdWord} (h : runWordThenReset w s = .next t) :
    ∃ u, runWord w s = .next u ∧ t = u.applyReset := by
  obtain ⟨u, hu⟩ := runWord_next w s
  unfold runWordThenReset at h
  rw [hu] at h
  cases h
  exact ⟨u, hu, rfl⟩

/-- A step holds the state while there is no input, or does what the next input does. -/
theorem step_cases (h : step s = .next t) :
    (s.input = [] ∧ t = s) ∨ ∃ input rest, s.input = input :: rest ∧ runInput input { s with input := rest } = .next t := by
  cases hin : s.input with
  | nil =>
    unfold step takeInput at h
    rw [hin] at h
    cases h
    exact .inl ⟨rfl, rfl⟩
  | cons input rest => exact .inr ⟨input, rest, rfl, step_input hin ▸ h⟩

theorem State.Inv.runInput {input : HostInput} (h : s.Inv) (hrun : Machine.runInput input s = .next t) : t.Inv := by
  cases input with
  | command w => exact h.runWord hrun
  | commandBytes bs =>
    obtain ⟨w, -, hw⟩ := runBytes_cases hrun
    exact h.runWord hw
  | commandWithReads w ports =>
    obtain ⟨u, hu, rfl⟩ := runWordWithReads_cases hrun
    exact h.observeDuring (h.runWord hu) ports (h.runWord hu)
  | read p =>
    cases hrun
    exact h.observe p
  | reset =>
    cases hrun
    exact h.applyReset
  | resetDuring w =>
    obtain ⟨u, hu, rfl⟩ := runWordThenReset_cases hrun
    exact (h.runWord hu).applyReset

/-- Settles O15: every input of the host keeps the invariant, and taking it from the port changes no field of the block. -/
theorem everyStepKeepsTheInvariant : Obligations.EveryStepKeepsTheInvariant := by
  unfold Obligations.EveryStepKeepsTheInvariant
  intro s t h hstep
  rcases step_cases hstep with ⟨-, rfl⟩ | ⟨input, rest, -, hrun⟩
  · exact h
  · exact (h.withHost h.observedExact rest s.midReads).runInput hrun

end Sys2Proof.Machine
end

section
/-! SUPPORT. Words, values and STATUS carried as little-endian bytes (20_memory.md R42). -/

namespace Sys2Proof

/-! ## Byte k of what is carried -/

variable {k : Nat}

theorem getElem?_bytesOfWord (w : CmdWord) (hk : k < 16) : (bytesOfWord w)[k]? = some (w.extractLsb' (8 * k) 8) := by
  simp [bytesOfWord, hk]

theorem getElem?_bytesOfValue (v : Value) (hk : k < 12) :
    (Machine.bytesOfValue v)[k]? = some (v.extractLsb' (8 * k) 8) := by
  simp [Machine.bytesOfValue, hk]

theorem getElem?_bytesOfStatus (w : BitVec 32) (hk : k < 4) :
    (Machine.bytesOfStatus w)[k]? = some (w.extractLsb' (8 * k) 8) := by
  simp [Machine.bytesOfStatus, hk]

@[simp] theorem length_bytesOfWord (w : CmdWord) : (bytesOfWord w).length = 16 := by simp [bytesOfWord]

@[simp] theorem length_bytesOfValue (v : Value) : (Machine.bytesOfValue v).length = 12 := by simp [Machine.bytesOfValue]

@[simp] theorem length_bytesOfStatus (w : BitVec 32) : (Machine.bytesOfStatus w).length = 4 := by
  simp [Machine.bytesOfStatus]

/-! ## The word that bytes carry -/

theorem wordOfBytes_of_length {bs : List Byte} (h : bs.length = 16) : wordOfBytes bs = some (wordOfBytesLE bs) := if_pos h

/-- Bit j of the word is bit j % 8 of byte j / 8, and bits past the last byte are 0. -/
theorem getLsbD_wordOfBytesLE (bs : List Byte) {j : Nat} (hj : j < 128) :
    (wordOfBytesLE bs).getLsbD j = (bs[j / 8]?.getD 0#8).getLsbD (j % 8) := by
  induction bs generalizing j with
  | nil => simp [wordOfBytesLE]
  | cons b rest ih =>
    by_cases hlow : j < 8
    · simp [wordOfBytesLE, hj, hlow, Nat.div_eq_of_lt hlow, Nat.mod_eq_of_lt hlow]
    · obtain ⟨i, rfl⟩ : ∃ i, j = i + 8 := ⟨j - 8, by omega⟩
      have hi : i < 128 := by omega
      simpa [wordOfBytesLE, hj, hi] using ih hi

/-- Byte k of the word is the k-th byte given. -/
theorem extractLsb'_wordOfBytesLE (bs : List Byte) (hk : k < 16) :
    (wordOfBytesLE bs).extractLsb' (8 * k) 8 = bs[k]?.getD 0#8 := by
  refine BitVec.eq_of_getLsbD_eq fun i hi => ?_
  have hbyte : (8 * k + i) / 8 = k := by omega
  have hbit : (8 * k + i) % 8 = i := by omega
  rw [BitVec.getLsbD_extractLsb', getLsbD_wordOfBytesLE bs (by omega), hbyte, hbit]
  simp [hi]

theorem wordOfBytesLE_bytesOfWord (w : CmdWord) : wordOfBytesLE (bytesOfWord w) = w := by
  refine BitVec.eq_of_getLsbD_eq fun j hj => ?_
  rw [getLsbD_wordOfBytesLE _ hj, getElem?_bytesOfWord w (by omega), Option.getD_some, BitVec.getLsbD_extractLsb',
    Nat.div_add_mod]
  simp [Nat.mod_lt]

@[simp] theorem wordOfBytes_bytesOfWord (w : CmdWord) : wordOfBytes (bytesOfWord w) = some w := by
  rw [wordOfBytes_of_length (length_bytesOfWord w), wordOfBytesLE_bytesOfWord]

theorem bytesOfWord_wordOfBytesLE {bs : List Byte} (h : bs.length = 16) : bytesOfWord (wordOfBytesLE bs) = bs := by
  refine List.ext_getElem? fun k => ?_
  by_cases hk : k < 16
  · rw [getElem?_bytesOfWord _ hk, extractLsb'_wordOfBytesLE bs hk, List.getElem?_eq_getElem (h ▸ hk), Option.getD_some]
  · rw [List.getElem?_eq_none (by simpa using hk), List.getElem?_eq_none (by omega)]

/-! ## A value's first and last byte, and a word issued as bytes -/

/-- Byte 0 is `tail[7:0]`. -/
theorem extractLsb'_append_tail (h : Head) (t : Tail) : (h ++ t).extractLsb' 0 8 = t.extractLsb' 0 8 :=
  BitVec.extractLsb'_append_eq_of_add_le (by decide)

/-- Byte 11 is `head[63:56]`. -/
theorem extractLsb'_append_head (h : Head) (t : Tail) : (h ++ t).extractLsb' 88 8 = h.extractLsb' 56 8 :=
  BitVec.extractLsb'_append_eq_of_le (by decide)

theorem Machine.runBytes_bytesOfWord (w : CmdWord) (s : Machine.State) :
    Machine.runBytes (bytesOfWord w) s = Machine.runWord w s := by
  simp [Machine.runBytes]

/-- Settles O6: a word and its 16 bytes determine each other bit by bit, and the command port reads the bytes as that word. -/
theorem bytesCarryWordsInLittleEndianOrder : Obligations.BytesCarryWordsInLittleEndianOrder := by
  unfold Obligations.BytesCarryWordsInLittleEndianOrder
  refine ⟨fun w => ⟨length_bytesOfWord w, wordOfBytes_bytesOfWord w, fun k hk => getElem?_bytesOfWord w hk⟩,
    fun bs h => ⟨wordOfBytesLE bs, wordOfBytes_of_length h, bytesOfWord_wordOfBytesLE h⟩,
    fun v => ⟨length_bytesOfValue v, fun k hk => getElem?_bytesOfValue v hk⟩, fun h t => ⟨?_, ?_⟩,
    fun w => ⟨length_bytesOfStatus w, fun k hk => getElem?_bytesOfStatus w hk⟩, fun s w rest => ?_⟩
  · rw [getElem?_bytesOfValue _ (by decide), ← extractLsb'_append_tail h t]
  · rw [getElem?_bytesOfValue _ (by decide), ← extractLsb'_append_head h t]
  · rw [Machine.step_input rfl, Machine.step_input rfl, Machine.runInput_command]
    exact Machine.runBytes_bytesOfWord w _

end Sys2Proof
end

section
/-! SUPPORT. The decoder's two reasons for BAD, field by field, and the reserved encodings (30_encoding.md R60). -/

namespace Sys2Proof

/-! ## The opcode map (30_encoding.md R59) -/

section OpcodeMap

variable {op : BitVec 5} {d : BitVec 1} {ch : CharCode} {imm32 : Tail} {imm64 : Head}

/-- The map has no command at 0x00 and at 0x13..0x1F, and one everywhere else. -/
theorem commandOf_eq_none_iff : commandOf op d ch imm32 imm64 = none ↔ op.toNat = 0 ∨ 0x13 ≤ op.toNat := by
  unfold commandOf
  split
  case h_19 =>
    refine iff_of_true rfl ?_
    simp only [imp_false] at *
    omega
  all_goals exact iff_of_false nofun (by omega)

theorem opcode_of_commandOf {i : Instr} (h : commandOf op d ch imm32 imm64 = some i) : i.opcode = op := by
  unfold commandOf at h
  split at h
  case h_19 => cases h
  all_goals
    cases h
    exact BitVec.eq_of_toNat_eq (Eq.symm ‹_›)

theorem selectCommand_eq_none_iff {w : CmdWord} :
    selectCommand w = none ↔ (fieldOp w).toNat = 0 ∨ 0x13 ≤ (fieldOp w).toNat := commandOf_eq_none_iff

theorem opcode_of_selectCommand {w : CmdWord} {i : Instr} (h : selectCommand w = some i) : i.opcode = fieldOp w :=
  opcode_of_commandOf h

end OpcodeMap

/-! ## The format of an opcode (30_encoding.md R52, R59) -/

theorem opcode_ge_0x10_iff (i : Instr) : 0x10 ≤ i.opcode.toNat ↔ i.format = .w ∨ i.format = .z ∨ i.format = .c := by
  cases i <;> simp [Instr.opcode, Instr.format]

theorem opcode_shift_iff (i : Instr) : i.opcode.toNat = 0x05 ∨ i.opcode.toNat = 0x06 ↔ i.format = .s := by
  cases i <;> simp [Instr.opcode, Instr.format]

theorem opcode_eq_0x10_iff (i : Instr) : i.opcode.toNat = 0x10 ↔ i.format = .w := by
  cases i <;> simp [Instr.opcode, Instr.format]

theorem opcode_eq_0x12_iff (i : Instr) : i.opcode.toNat = 0x12 ↔ i.format = .c := by
  cases i <;> simp [Instr.opcode, Instr.format]

/-! ## The live-field check -/

/-- RSV_A, bits [7:6] (30_encoding.md R51). -/
def fieldRsvA (w : CmdWord) : BitVec 2 := w.extractLsb' 6 2

/-- RSV_B, bits [31:16] (30_encoding.md R51). -/
def fieldRsvB (w : CmdWord) : BitVec 16 := w.extractLsb' 16 16

/-- Every bit of a word is in one of its fields (30_encoding.md R51). -/
theorem eq_zero_iff_fields (w : CmdWord) :
    w = 0#128 ↔ fieldOp w = 0#5 ∧ fieldD w = 0#1 ∧ fieldRsvA w = 0#2 ∧ fieldCh w = 0#8 ∧ fieldRsvB w = 0#16
      ∧ fieldImm32 w = 0#32 ∧ fieldImm64 w = 0#64 := by
  constructor
  · rintro rfl
    decide
  · rintro ⟨hop, hd, hA, hch, hB, h32, h64⟩
    rw [← packWord_fields hA hB, hop, hd, hch, h32, h64, packWord_zero]

theorem extractLsb'_and_not (w m : CmdWord) (start len : Nat) :
    (w &&& ~~~m).extractLsb' start len = w.extractLsb' start len &&& ~~~m.extractLsb' start len := by
  refine BitVec.eq_of_getLsbD_eq fun i hi => ?_
  simp only [BitVec.getLsbD_extractLsb', getLsbD_and_not, hi, decide_true, Bool.true_and]

/-- Checked against a mask that holds all of a live field and nothing of a dead one, a field is clear when it is 0 or live. -/
theorem extractLsb'_and_not_eq_zero_iff (w : CmdWord) {m : CmdWord} {start len : Nat} {live : Prop} [Decidable live]
    (hm : m.extractLsb' start len = if live then BitVec.allOnes len else 0#len) :
    (w &&& ~~~m).extractLsb' start len = 0#len ↔ w.extractLsb' start len = 0#len ∨ live := by
  rw [extractLsb'_and_not, hm]
  split <;> simp [*]

/-- A word has no bit outside the live fields exactly when each field is 0 or live in the format (30_encoding.md R52). -/
theorem and_not_liveMask_eq_zero_iff (w : CmdWord) (f : Format) :
    w &&& ~~~ liveMask f = 0#128 ↔
      fieldRsvA w = 0#2 ∧ fieldRsvB w = 0#16 ∧ (fieldD w = 0#1 ∨ f = .w ∨ f = .z ∨ f = .c) ∧ (fieldCh w = 0#8 ∨ f = .c)
        ∧ (fieldImm32 w = 0#32 ∨ f = .s ∨ f = .w) ∧ (fieldImm64 w = 0#64 ∨ f = .w) := by
  have hop : fieldOp (w &&& ~~~ liveMask f) = 0#5 ↔ fieldOp w = 0#5 ∨ True :=
    extractLsb'_and_not_eq_zero_iff w (by cases f <;> decide)
  have hd : fieldD (w &&& ~~~ liveMask f) = 0#1 ↔ fieldD w = 0#1 ∨ f = .w ∨ f = .z ∨ f = .c :=
    extractLsb'_and_not_eq_zero_iff w (by cases f <;> decide)
  have hA : fieldRsvA (w &&& ~~~ liveMask f) = 0#2 ↔ fieldRsvA w = 0#2 ∨ False :=
    extractLsb'_and_not_eq_zero_iff w (by cases f <;> decide)
  have hch : fieldCh (w &&& ~~~ liveMask f) = 0#8 ↔ fieldCh w = 0#8 ∨ f = .c :=
    extractLsb'_and_not_eq_zero_iff w (by cases f <;> decide)
  have hB : fieldRsvB (w &&& ~~~ liveMask f) = 0#16 ↔ fieldRsvB w = 0#16 ∨ False :=
    extractLsb'_and_not_eq_zero_iff w (by cases f <;> decide)
  have h32 : fieldImm32 (w &&& ~~~ liveMask f) = 0#32 ↔ fieldImm32 w = 0#32 ∨ f = .s ∨ f = .w :=
    extractLsb'_and_not_eq_zero_iff w (by cases f <;> decide)
  have h64 : fieldImm64 (w &&& ~~~ liveMask f) = 0#64 ↔ fieldImm64 w = 0#64 ∨ f = .w :=
    extractLsb'_and_not_eq_zero_iff w (by cases f <;> decide)
  simp only [eq_zero_iff_fields, hop, hd, hA, hch, hB, h32, h64, or_true, or_false, true_and, and_left_comm]

/-! ## Reserved encodings -/

/-- A word is BAD for one of two reasons: it selects no command, or it has a nonzero dead field. -/
theorem decode_bad_iff (w : CmdWord) :
    (∃ r, decode w = .bad r) ↔ ∀ i, selectCommand w = some i → w &&& ~~~ liveMask i.format ≠ 0#128 := by
  unfold decode
  cases selectCommand w with
  | none => simp
  | some i =>
    by_cases h : w &&& ~~~ liveMask i.format = 0#128 <;> simp [h]

/-- 30_encoding.md R60's list: a reserved OP, or a field that is neither 0 nor live for the OP. -/
theorem reserved_iff_fields (w : CmdWord) :
    Claim.Reserved w ↔ (fieldOp w).toNat = 0 ∨ 0x13 ≤ (fieldOp w).toNat ∨
      ¬ (fieldRsvA w = 0#2 ∧ fieldRsvB w = 0#16 ∧ (fieldD w = 0#1 ∨ 0x10 ≤ (fieldOp w).toNat)
          ∧ (fieldCh w = 0#8 ∨ (fieldOp w).toNat = 0x12)
          ∧ (fieldImm32 w = 0#32 ∨ ((fieldOp w).toNat = 0x05 ∨ (fieldOp w).toNat = 0x06) ∨ (fieldOp w).toNat = 0x10)
          ∧ (fieldImm64 w = 0#64 ∨ (fieldOp w).toNat = 0x10)) := by
  simp only [not_and_or, not_or, and_assoc, Nat.not_le]
  rfl

theorem reserved_of_selectCommand_none {w : CmdWord} (h : selectCommand w = none) : Claim.Reserved w := by
  rcases selectCommand_eq_none_iff.mp h with hzero | hhigh
  · exact .inl hzero
  · exact .inr (.inl hhigh)

/-- Of the words that select a command, those with a nonzero dead field are reserved. -/
theorem reserved_iff_of_selectCommand {w : CmdWord} {i : Instr} (h : selectCommand w = some i) :
    Claim.Reserved w ↔ w &&& ~~~ liveMask i.format ≠ 0#128 := by
  have hmap : ¬ ((fieldOp w).toNat = 0 ∨ 0x13 ≤ (fieldOp w).toNat) := by
    rw [← selectCommand_eq_none_iff, h]
    nofun
  obtain ⟨hzero, hhigh⟩ := not_or.mp hmap
  rw [Ne, and_not_liveMask_eq_zero_iff, ← opcode_ge_0x10_iff, ← opcode_eq_0x10_iff, ← opcode_eq_0x12_iff, ← opcode_shift_iff,
    opcode_of_selectCommand h, reserved_iff_fields]
  simp only [hzero, hhigh, false_or]

theorem decode_bad_iff_reserved (w : CmdWord) : (∃ r, decode w = .bad r) ↔ Claim.Reserved w := by
  rw [decode_bad_iff]
  cases h : selectCommand w with
  | none => exact iff_of_true nofun (reserved_of_selectCommand_none h)
  | some i => simp [reserved_iff_of_selectCommand h]

namespace Machine

theorem runWord_of_bad {w : CmdWord} {r : BadReason} (h : decode w = .bad r) (s : State) :
    runWord w s = .next s.rejectBad := by
  unfold runWord
  rw [h]

/-- Settles O5: the decoder's two reasons for BAD are the reserved encodings field by field, and a BAD word sets RKIND. -/
theorem reservedEncodingsAreExactlyTheBadWords : Obligations.ReservedEncodingsAreExactlyTheBadWords := by
  unfold Obligations.ReservedEncodingsAreExactlyTheBadWords
  refine ⟨decode_bad_iff_reserved, .inl rfl, fun w s rest hw hin => ?_⟩
  obtain ⟨r, hbad⟩ := (decode_bad_iff_reserved w).mpr hw
  rw [step_input hin, runInput_command, runWord_of_bad hbad]
  rfl

end Machine

end Sys2Proof
end

section
/-! SUPPORT. The rules' own sums and products (00_scope.md R8, R9) agree with the operations the model computes with. -/

namespace Sys2Proof.Machine

open Sys2Proof.Claim

theorem popcount_eq_bitSum {n : Nat} (v : BitVec n) : popcount v = bitSum v := popcountBelow_eq_sum v n

theorem mk_eq_content (h : Head) (t : Tail) : mk h t = content h t := by
  rw [mk, content, countWords, popcount_eq_bitSum, popcount_eq_bitSum]

theorem mk96_eq_contentOf (v : Value) : mk96 v = contentOf v := mk_eq_content _ _

@[simp] theorem bitSum_zero (n : Nat) : bitSum (0#n) = 0 := by simp [bitSum]

/-- Each of the n bits of all ones counts once. -/
theorem bitSum_allOnes (n : Nat) : bitSum (BitVec.allOnes n) = n := by
  have hbit : ∀ i ∈ Finset.range n, ((BitVec.allOnes n).getLsbD i).toNat = 1 := fun i hi => by
    simp [Finset.mem_range.mp hi]
  rw [bitSum, Finset.sum_congr rfl hbit, Finset.sum_const, Finset.card_range, smul_eq_mul, Nat.mul_one]

theorem shlN_eq_shl96 (v : Value) (n : Nat) : shlN v n = shl96 v n := by
  rw [shlN_eq, shl96]
  exact BitVec.eq_of_toNat_eq (by rw [BitVec.toNat_shiftLeft, BitVec.toNat_ofNat, Nat.shiftLeft_eq])

theorem raiseUninit_eq_afterUninit (s : State) (d : Reg) : s.raiseUninit d = afterUninit s (causeOf d) := rfl

end Sys2Proof.Machine
end

section
/-! SUPPORT. A packed command word as a number, and the words of LDW, LDPZ and LDPC (30_encoding.md R51, R55 to R57). -/

namespace Sys2Proof

theorem toNat_append_eq_add {n m : Nat} (x : BitVec n) (y : BitVec m) : (x ++ y).toNat = x.toNat * 2 ^ m + y.toNat := by
  rw [BitVec.toNat_append, ← Nat.shiftLeft_add_eq_or_of_lt y.isLt, Nat.shiftLeft_eq]

/-- Each field of a packed word weighs 2 to its lowest bit (30_encoding.md R51). -/
theorem toNat_packWord (op : BitVec 5) (d : BitVec 1) (ch : CharCode) (imm32 : Tail) (imm64 : Head) :
    (packWord op d ch imm32 imm64).toNat =
      imm64.toNat * 2 ^ 64 + imm32.toNat * 2 ^ 32 + ch.toNat * 2 ^ 8 + d.toNat * 2 ^ 5 + op.toNat := by
  simp only [packWord, toNat_append_eq_add, BitVec.toNat_ofNat]
  omega

/-- A word that selects its own command has nothing in a dead field, so it decodes to that command. -/
theorem decode_encode_of_selectCommand {i : Instr} (hshape : Laws.EncodedShape.Statement i)
    (hselect : selectCommand (encode i) = some i) : decode (encode i) = .command i := by
  unfold decode
  rw [hselect]
  exact if_pos hshape.2

theorem decode_encode_ldw (d : Reg) (h : Head) (t : Tail) : decode (encode (.ldw d h t)) = .command (.ldw d h t) :=
  decode_encode_of_selectCommand (Laws.EncodedShape.ldw d h t) (by simp [encode, packW, Instr.opcode, commandOf])

theorem decode_encode_ldpz (d : Reg) : decode (encode (.ldpz d)) = .command (.ldpz d) :=
  decode_encode_of_selectCommand (Laws.EncodedShape.ldpz d) (by simp [encode, packZ, Instr.opcode, commandOf])

theorem decode_encode_ldpc (d : Reg) (ch : CharCode) : decode (encode (.ldpc d ch)) = .command (.ldpc d ch) :=
  decode_encode_of_selectCommand (Laws.EncodedShape.ldpc d ch) (by simp [encode, packC, Instr.opcode, commandOf])

theorem toNat_encode_ldw (d : Reg) (h : Head) (t : Tail) :
    (encode (.ldw d h t)).toNat = h.toNat * 2 ^ 64 + t.toNat * 2 ^ 32 + (bitOfReg d).toNat * 2 ^ 5 + 0x10 := by
  simp [encode, packW, Instr.opcode, toNat_packWord]

theorem toNat_encode_ldpc (d : Reg) (ch : CharCode) :
    (encode (.ldpc d ch)).toNat = ch.toNat * 2 ^ 8 + (bitOfReg d).toNat * 2 ^ 5 + 0x12 := by
  simp [encode, packC, Instr.opcode, toNat_packWord]

end Sys2Proof
end

section
/-! SUPPORT. The register loads and `fromBitPattern` (40_construction.md). -/

namespace Sys2Proof.Machine

open Sys2Proof.Claim

variable {s : State} {d : Reg} {b : BitString}

/-! ## What the loads do -/

theorem writeX_x0_of_loaded (h : s.v0 = true) : s.writeX .x0 b = { s with x0 := b } := by simp [State.writeX, h]

theorem writeX_x1_of_loaded (h : s.v1 = true) : s.writeX .x1 b = { s with x1 := b } := by simp [State.writeX, h]

/-- LDW (40_construction.md R72). -/
theorem exec_ldw (d : Reg) (h : Head) (t : Tail) (s : State) :
    exec (.ldw d h t) s = .next (s.putLoaded d (content h t)) := by
  rw [exec_eq, requireThen_loaded (by simp [readsOf]), effectOf, mk_eq_content]

/-- LDPZ (40_construction.md R73). -/
theorem exec_ldpz (d : Reg) (s : State) : exec (.ldpz d) s = .next (s.putLoaded d (content 0#64 0#32)) := by
  rw [exec_eq, requireThen_loaded (by simp [readsOf]), effectOf, mk_eq_content]

/-- The zero value counts 0 (40_construction.md R73). -/
theorem content_zero : content 0#64 0#32 = { head := 0#64, tail := 0#32, pcnt := 0#7 } := by simp [content]

/-- The model's shift of a character into a value, in the rule's own product (40_construction.md R74). -/
theorem shiftInChar_eq (v : Value) (ch : CharCode) :
    shiftInChar v ch = shl96 v 1 ||| if ch = Config.oneChar then 1#96 else 0#96 := by
  rw [shiftInChar, shlN_eq_shl96, isOneChar]
  split <;> simp [*]

/-- LDPC of a loaded register (40_construction.md R74). -/
theorem exec_ldpc_loaded (h : s.v d = true) (ch : CharCode) :
    exec (.ldpc d ch) s =
      .next (s.putLoaded d (contentOf (shl96 (s.x d).val 1 ||| if ch = Config.oneChar then 1#96 else 0#96))) := by
  rw [exec_eq, requireThen_loaded (by simpa [readsOf] using h), effectOf, mk96_eq_contentOf, shiftInChar_eq]

/-- LDPC of an unloaded register, whatever the other register is (40_construction.md R74). -/
theorem exec_ldpc_unloaded (h : s.v d = false) (ch : CharCode) :
    exec (.ldpc d ch) s = .next (afterUninit s (causeOf d)) := by
  rw [exec_eq, requireThen_unloaded (d := d) (by simp [readsOf, h]), raiseUninit_eq_afterUninit]

/-! ## The bits of `fromBitPattern` (40_construction.md R71) -/

/-- Bit i is the character's i places from the right, and 0 beyond the text or bit 95. -/
theorem getLsbD_fromBitPattern (text : List CharCode) (i : Nat) :
    (fromBitPattern text).val.getLsbD i = (decide (i < 96) && (text.reverse[i]?.map isOneChar).getD false) := by
  rw [fromBitPattern, mk96_val, BitVec.getLsbD_setWidth, BitVec.getLsbD_ofBoolListLE, List.getD_eq_getElem?_getD,
    List.getElem?_map]

/-- A bit is 1 exactly for the character `1`. -/
theorem getLsbD_fromBitPattern_iff (text : List CharCode) {i : Nat} (hi : i < 96) :
    (fromBitPattern text).val.getLsbD i = true ↔
      i < text.length ∧ text[text.length - 1 - i]? = some Config.oneChar := by
  rw [getLsbD_fromBitPattern]
  by_cases hlen : i < text.length
  · rw [List.getElem?_reverse hlen]
    cases text[text.length - 1 - i]? <;> simp [hi, hlen, isOneChar]
  · rw [List.getElem?_eq_none (by simpa using hlen)]
    simp [hlen]

/-- Settles O29: bit by bit from the text read right to left, and mk96 writes the count of the value it writes. -/
theorem fromBitPatternReadsRightToLeft : Obligations.FromBitPatternReadsRightToLeft := by
  unfold Obligations.FromBitPatternReadsRightToLeft
  refine fun text => ⟨fun i hi => getLsbD_fromBitPattern_iff text hi, ?_⟩
  rw [← mk96_eq_contentOf, fromBitPattern, mk96_val]

/-! ## The loads' statements -/

/-- Settles O26: the word by the weights of its fields, and the load's one effect at each register. -/
theorem ldwLoadsTheWordsVerbatim : Obligations.LdwLoadsTheWordsVerbatim := by
  unfold Obligations.LdwLoadsTheWordsVerbatim
  refine ⟨fun h t => ⟨?_, ?_, fun d => decode_encode_ldw d h t⟩,
    fun s h t => ⟨exec_ldw .x0 h t s, exec_ldw .x1 h t s⟩, ?_, ?_⟩
  · simp [toNat_encode_ldw, bitOfReg]
  · simp [toNat_encode_ldw, bitOfReg]
  · rw [content_zero]
  · rw [content, bitSum_allOnes, bitSum_allOnes]

/-- Settles O27: LDPZ loads the content of two zero words. -/
theorem ldpzLoadsTheZeroValue : Obligations.LdpzLoadsTheZeroValue := by
  unfold Obligations.LdpzLoadsTheZeroValue
  refine ⟨⟨by decide, decode_encode_ldpz .x0⟩, ⟨by decide, decode_encode_ldpz .x1⟩, fun s => ?_⟩
  rw [← content_zero]
  exact ⟨exec_ldpz .x0 s, exec_ldpz .x1 s⟩

/-- Settles O28: LDPC shifts its character into a loaded register, whose valid bit stays, and raises UNINIT of an unloaded
one. -/
theorem ldpcShiftsOneCharacterIn : Obligations.LdpcShiftsOneCharacterIn := by
  unfold Obligations.LdpcShiftsOneCharacterIn
  refine ⟨fun ch => ⟨?_, ?_, fun d => decode_encode_ldpc d ch⟩, fun s ch h => ?_, fun s ch h => ?_, fun s ch h => ?_,
    fun s ch h => ?_⟩
  · simp [toNat_encode_ldpc, bitOfReg]
  · simp [toNat_encode_ldpc, bitOfReg]
  · rw [exec_ldpc_loaded (d := .x0) h, State.putLoaded_eq, writeX_x0_of_loaded h]; rfl
  · rw [exec_ldpc_loaded (d := .x1) h, State.putLoaded_eq, writeX_x1_of_loaded h]; rfl
  · exact exec_ldpc_unloaded (d := .x0) h ch
  · exact exec_ldpc_unloaded (d := .x1) h ch

end Sys2Proof.Machine
end

section
/-! SUPPORT. What a two-operand command does, once for every command of that row, and the bitwise commands (41_bitwise.md). -/

namespace Sys2Proof.Machine

open Sys2Proof.Claim

variable {i : Instr}

/-! ## Require, at the commands that require X[0] first -/

theorem raisesUninit0_of_readsOf {rest : List Reg} (hreads : readsOf i = .x0 :: rest) : RaisesUninit0 i := by
  intro s h0
  rw [exec_eq, requireThen_unloaded (d := .x0) (by simp [hreads, h0]), raiseUninit_eq_afterUninit, causeOf]

theorem raisesUninit1_of_readsOf (hreads : readsOf i = bothRegisters) : RaisesUninit1 i := by
  intro s h0 h1
  rw [exec_eq, requireThen_unloaded (d := .x1) (by simp [hreads, bothRegisters, h0, h1]), raiseUninit_eq_afterUninit, causeOf]

/-- With both operands loaded a two-operand command's writes happen. -/
theorem exec_of_both_loaded {s : State} (hreads : readsOf i = bothRegisters) (h0 : s.v0 = true) (h1 : s.v1 = true) :
    exec i s = .next (effectOf i s) := by
  rw [exec_eq, requireThen_loaded (by simp [hreads, bothRegisters, h0, h1])]

/-! ## The commands that write X[0] from both operands -/

section

variable {head : Head → Head → Head} {tail : Tail → Tail → Tail}

/-- V[0] is set already, so writing X[0] changes only the content and RKIND. -/
theorem writesBits_of_effectOf (hreads : readsOf i = bothRegisters)
    (heffect : ∀ s, effectOf i s = s.putBits (mk (head s.x0.head s.x1.head) (tail s.x0.tail s.x1.tail))) :
    WritesBits i head tail := by
  intro s h0 h1
  rw [exec_of_both_loaded hreads h0 h1, heffect, State.putBits_eq, writeX_x0_of_loaded h0, mk_eq_content, State.setRKind]

theorem leavesX0_of_writesBits (hwrites : WritesBits i head tail) (s : State) {a b c : BitString}
    (hc : content (head a.head b.head) (tail a.tail b.tail) = c) : LeavesX0 i (operands s a b) c :=
  ⟨_, hwrites (operands s a b) rfl rfl, hc⟩

end

/-! ## The contents of the corner cases -/

/-- A register whose count is exact holds what mk writes for its own words (10_state.md R21). -/
theorem content_of_countExact {a : BitString} (h : a.countExact) : content a.head a.tail = a := by
  rw [BitString.countExact, popcount_eq_bitSum, popcount_eq_bitSum] at h
  rw [content, ← h, BitVec.ofNat_toNat, BitVec.setWidth_eq]

/-- All ones count 96. -/
theorem content_allOnes :
    content (BitVec.allOnes 64) (BitVec.allOnes 32) =
      { head := BitVec.allOnes 64, tail := BitVec.allOnes 32, pcnt := 96#7 } := by
  rw [content, bitSum_allOnes, bitSum_allOnes]

/-! ## The statements of AND, OR and XOR -/

theorem writesBits_and : WritesBits .and (fun a b => a &&& b) (fun a b => a &&& b) :=
  writesBits_of_effectOf rfl fun _ => rfl

theorem writesBits_or : WritesBits .or (fun a b => a ||| b) (fun a b => a ||| b) :=
  writesBits_of_effectOf rfl fun _ => rfl

theorem writesBits_xor : WritesBits .xor (fun a b => a ^^^ b) (fun a b => a ^^^ b) :=
  writesBits_of_effectOf rfl fun _ => rfl

/-- Settles O32: the corner cases are the zero, the unit and the idempotence of AND on each lane. -/
theorem andIsLaneWiseAnd : Obligations.AndIsLaneWiseAnd := by
  unfold Obligations.AndIsLaneWiseAnd
  refine ⟨⟨by decide, by decide⟩, writesBits_and, raisesUninit0_of_readsOf rfl, raisesUninit1_of_readsOf rfl,
    fun s a b ha => ⟨fun ⟨hhead, htail⟩ => ?_, fun ⟨hhead, htail⟩ => ?_, ?_⟩⟩ <;>
    apply leavesX0_of_writesBits writesBits_and
  · rw [hhead, htail, BitVec.and_zero, BitVec.and_zero, content_zero]
  · rw [hhead, htail, BitVec.and_allOnes, BitVec.and_allOnes, content_of_countExact ha]
  · rw [BitVec.and_self, BitVec.and_self, content_of_countExact ha]

/-- Settles O33: the corner cases are the unit, the greatest element and the idempotence of OR on each lane. -/
theorem orIsLaneWiseOr : Obligations.OrIsLaneWiseOr := by
  unfold Obligations.OrIsLaneWiseOr
  refine ⟨⟨by decide, by decide⟩, writesBits_or, raisesUninit0_of_readsOf rfl, raisesUninit1_of_readsOf rfl,
    fun s a b ha => ⟨fun ⟨hhead, htail⟩ => ?_, fun ⟨hhead, htail⟩ => ?_, ?_⟩⟩ <;>
    apply leavesX0_of_writesBits writesBits_or
  · rw [hhead, htail, BitVec.or_zero, BitVec.or_zero, content_of_countExact ha]
  · rw [hhead, htail, BitVec.or_allOnes, BitVec.or_allOnes, content_allOnes]
  · rw [BitVec.or_self, BitVec.or_self, content_of_countExact ha]

/-- Settles O34: the corner cases are XOR of equal words, with zero and with all ones, on each lane. -/
theorem xorIsLaneWiseXor : Obligations.XorIsLaneWiseXor := by
  unfold Obligations.XorIsLaneWiseXor
  refine ⟨⟨by decide, by decide⟩, writesBits_xor, raisesUninit0_of_readsOf rfl, raisesUninit1_of_readsOf rfl,
    fun s a b ha => ⟨fun ⟨hhead, htail⟩ => ?_, fun ⟨hhead, htail⟩ => ?_, fun ⟨hhead, htail⟩ => ?_⟩⟩ <;>
    apply leavesX0_of_writesBits writesBits_xor
  · rw [hhead, htail, BitVec.xor_self, BitVec.xor_self, content_zero]
  · rw [hhead, htail, BitVec.xor_zero, BitVec.xor_zero, content_of_countExact ha]
  · rw [hhead, htail, BitVec.xor_allOnes, BitVec.xor_allOnes]

end Sys2Proof.Machine
end

section
/-! SUPPORT. The words of SHL and SHR (30_encoding.md R54). -/

namespace Sys2Proof

variable {n : Nat}

theorem toNat_packS (op : BitVec 5) (hn : n < 2 ^ 32) : (packS op n).toNat = n * 2 ^ 32 + op.toNat := by
  simpa [packS, toNat_packWord] using hn

theorem toNat_encode_shl (hn : n < 2 ^ 32) : (encode (.shl n)).toNat = n * 2 ^ 32 + 0x05 := toNat_packS _ hn

theorem toNat_encode_shr (hn : n < 2 ^ 32) : (encode (.shr n)).toNat = n * 2 ^ 32 + 0x06 := toNat_packS _ hn

theorem decode_encode_shl (hn : n < 2 ^ 32) : decode (encode (.shl n)) = .command (.shl n) :=
  decode_encode_of_selectCommand (Laws.EncodedShape.shl n)
    (by simpa [encode, packS, Instr.opcode, commandOf] using hn)

theorem decode_encode_shr (hn : n < 2 ^ 32) : decode (encode (.shr n)) = .command (.shr n) :=
  decode_encode_of_selectCommand (Laws.EncodedShape.shr n)
    (by simpa [encode, packS, Instr.opcode, commandOf] using hn)

end Sys2Proof
end

section
/-! SUPPORT. The shifts of the 96-bit value at each boundary of its words, and the shift commands (42_shift.md). -/

namespace Sys2Proof.Machine

open Sys2Proof.Claim

/-! ## The product and the quotient of a value -/

section

variable (v : Value) (n : Nat)

theorem shrN_eq_shr96 : shrN v n = shr96 v n := by
  have hlt : v.toNat / 2 ^ n < 2 ^ 96 := (Nat.div_le_self _ _).trans_lt v.isLt
  rw [shrN_eq, shr96]
  exact BitVec.eq_of_toNat_eq (by
    rw [BitVec.toNat_ushiftRight, BitVec.toNat_ofNat, Nat.shiftRight_eq_div_pow, Nat.mod_eq_of_lt hlt])

theorem toNat_shl96 : (shl96 v n).toNat = v.toNat * 2 ^ n % 2 ^ 96 := BitVec.toNat_ofNat _ _

theorem toNat_shr96 : (shr96 v n).toNat = v.toNat / 2 ^ n := by
  rw [← shrN_eq_shr96, shrN_eq, BitVec.toNat_ushiftRight, Nat.shiftRight_eq_div_pow]

theorem shl96_zero : shl96 v 0 = v := by rw [← shlN_eq_shl96, shlN_eq, BitVec.shiftLeft_zero]

theorem shr96_zero : shr96 v 0 = v := by rw [← shrN_eq_shr96, shrN_eq, BitVec.ushiftRight_zero]

variable {n}

/-- A left shift by the width or more keeps nothing. -/
theorem shl96_of_ge (hn : 96 ≤ n) : shl96 v n = 0#64 ++ 0#32 := by
  rw [← shlN_eq_shl96, shlN_eq, BitVec.shiftLeft_eq_zero hn]
  rfl

/-- A right shift by the width or more keeps nothing. -/
theorem shr96_of_ge (hn : 96 ≤ n) : shr96 v n = 0#64 ++ 0#32 := by
  rw [← shrN_eq_shr96, shrN_eq, BitVec.ushiftRight_eq_zero hn]
  rfl

/-- The vacated low bits are 0 (42_shift.md R90). -/
theorem getLsbD_shl96_of_lt {i : Nat} (hi : i < n) : (shl96 v n).getLsbD i = false := by
  rw [← shlN_eq_shl96, shlN_eq, BitVec.getLsbD_shiftLeft]
  simp [hi]

/-- The vacated high bits are 0 (42_shift.md R91). -/
theorem getLsbD_shr96_of_ge {i : Nat} (hi : 96 - n ≤ i) : (shr96 v n).getLsbD i = false := by
  rw [← shrN_eq_shr96, shrN_eq, BitVec.getLsbD_ushiftRight]
  exact BitVec.getLsbD_of_ge v (n + i) (by omega)

end

/-! ## The words after a shift to a boundary -/

/-- A word that one bit switches on, as that bit times the word. -/
theorem toNat_ite_getLsbD {k m : Nat} (b : BitVec k) (i : Nat) (x : BitVec m) :
    (if b.getLsbD i then x else 0#m).toNat = b.toNat / 2 ^ i % 2 * x.toNat := by
  rw [BitVec.getLsbD, Nat.testBit_eq_decide_div_mod_eq]
  rcases Nat.mod_two_eq_zero_or_one (b.toNat / 2 ^ i) with hbit | hbit <;> simp [hbit]

section

variable (h : Head) (t : Tail)

theorem shl96_words_32 : shl96 (h ++ t) 32 = (h.extractLsb' 0 32 ++ t) ++ 0#32 := by
  refine BitVec.eq_of_toNat_eq ?_
  simp only [toNat_shl96, toNat_append_eq_add, BitVec.extractLsb'_toNat, BitVec.toNat_ofNat, Nat.shiftRight_zero]
  omega

theorem shl96_words_64 : shl96 (h ++ t) 64 = (t ++ 0#32) ++ 0#32 := by
  refine BitVec.eq_of_toNat_eq ?_
  simp only [toNat_shl96, toNat_append_eq_add, BitVec.toNat_ofNat]
  omega

/-- Only bit 0 of tail is left, as the top bit of head. -/
theorem shl96_words_95 :
    shl96 (h ++ t) 95 = (if t.getLsbD 0 then 0x8000000000000000#64 else 0#64) ++ 0#32 := by
  refine BitVec.eq_of_toNat_eq ?_
  simp only [toNat_shl96, toNat_append_eq_add, toNat_ite_getLsbD, BitVec.toNat_ofNat]
  omega

theorem shr96_words_32 :
    shr96 (h ++ t) 32 = (h.extractLsb' 32 32).setWidth 64 ++ h.extractLsb' 0 32 := by
  refine BitVec.eq_of_toNat_eq ?_
  simp only [toNat_shr96, toNat_append_eq_add, BitVec.toNat_setWidth, BitVec.extractLsb'_toNat,
    Nat.shiftRight_eq_div_pow]
  omega

theorem shr96_words_64 : shr96 (h ++ t) 64 = 0#64 ++ h.extractLsb' 32 32 := by
  refine BitVec.eq_of_toNat_eq ?_
  simp only [toNat_shr96, toNat_append_eq_add, BitVec.extractLsb'_toNat, BitVec.toNat_ofNat,
    Nat.shiftRight_eq_div_pow]
  omega

/-- Only the top bit of head is left, as bit 0 of tail. -/
theorem shr96_words_95 : shr96 (h ++ t) 95 = 0#64 ++ if h.getLsbD 63 then 1#32 else 0#32 := by
  refine BitVec.eq_of_toNat_eq ?_
  simp only [toNat_shr96, toNat_append_eq_add, toNat_ite_getLsbD, BitVec.toNat_ofNat]
  omega

end

/-! ## The content of a value -/

theorem contentOf_append (h : Head) (t : Tail) : contentOf (h ++ t) = content h t := by
  have hhead : (h ++ t).extractLsb' 32 64 = h := BitVec.extractLsb'_append_eq_left
  have htail : (h ++ t).extractLsb' 0 32 = t := BitVec.extractLsb'_append_eq_right
  rw [contentOf, hhead, htail]

theorem contentOf_val (v : Value) : (contentOf v).val = v := by rw [← mk96_eq_contentOf, mk96_val]

/-! ## What the shifts do -/

variable {s : State} {n : Nat}

/-- A unary command whose writes are a value's content leaves everything but X[0] and RKIND. -/
theorem exec_of_putBits_mk96 {i : Instr} {v : Value} (hreads : readsOf i = accumulatorOnly)
    (heffect : effectOf i s = s.putBits (mk96 v)) (h0 : s.v0 = true) :
    exec i s = .next { s with x0 := contentOf v, rkind := .bits } := by
  rw [exec_eq, requireThen_loaded (by simp [hreads, accumulatorOnly, h0]), heffect, State.putBits_eq,
    writeX_x0_of_loaded h0, mk96_eq_contentOf, State.setRKind]

/-- SHL (42_shift.md R90). -/
theorem exec_shl (h0 : s.v0 = true) (n : Nat) :
    exec (.shl n) s = .next { s with x0 := contentOf (shl96 s.x0.val n), rkind := .bits } :=
  shlN_eq_shl96 s.x0.val n ▸ exec_of_putBits_mk96 rfl rfl h0

/-- SHR (42_shift.md R91). -/
theorem exec_shr (h0 : s.v0 = true) (n : Nat) :
    exec (.shr n) s = .next { s with x0 := contentOf (shr96 s.x0.val n), rkind := .bits } :=
  shrN_eq_shr96 s.x0.val n ▸ exec_of_putBits_mk96 rfl rfl h0

theorem leavesX0_shl (h0 : s.v0 = true) {h : Head} {t : Tail} (hv : shl96 s.x0.val n = h ++ t) :
    LeavesX0 (.shl n) s (content h t) :=
  ⟨_, exec_shl h0 n, by rw [hv, contentOf_append]⟩

theorem leavesX0_shr (h0 : s.v0 = true) {h : Head} {t : Tail} (hv : shr96 s.x0.val n = h ++ t) :
    LeavesX0 (.shr n) s (content h t) :=
  ⟨_, exec_shr h0 n, by rw [hv, contentOf_append]⟩

/-! ## The statements of SHL and SHR -/

/-- Settles O37: the product modulo 2^96, and its words at each boundary of head and tail. -/
theorem shlShiftsLeftAcrossTheWords : Obligations.ShlShiftsLeftAcrossTheWords := by
  unfold Obligations.ShlShiftsLeftAcrossTheWords
  refine ⟨fun n hn => ⟨toNat_encode_shl hn, decode_encode_shl hn⟩, fun s n h0 => exec_shl h0 n,
    fun n => raisesUninit0_of_readsOf rfl, fun s h0 => ⟨fun hexact => ?_, leavesX0_shl h0 (shl96_words_32 _ _),
      leavesX0_shl h0 (shl96_words_64 _ _), leavesX0_shl h0 (shl96_words_95 _ _), fun n hn => ?_, fun n _ => ?_⟩⟩
  · rw [← content_of_countExact hexact]
    exact leavesX0_shl h0 (shl96_zero _)
  · rw [← content_zero]
    exact leavesX0_shl h0 (shl96_of_ge _ hn)
  · refine ⟨_, exec_shl h0 n, fun i hi => ?_⟩
    rw [contentOf_val, getLsbD_shl96_of_lt _ hi]

/-- Settles O38: the quotient by 2^N, and its words at each boundary of head and tail. -/
theorem shrShiftsRightAcrossTheWords : Obligations.ShrShiftsRightAcrossTheWords := by
  unfold Obligations.ShrShiftsRightAcrossTheWords
  refine ⟨fun n hn => ⟨toNat_encode_shr hn, decode_encode_shr hn⟩, fun s n h0 => exec_shr h0 n,
    fun n => raisesUninit0_of_readsOf rfl, fun s h0 => ⟨fun hexact => ?_, leavesX0_shr h0 (shr96_words_32 _ _),
      leavesX0_shr h0 (shr96_words_64 _ _), leavesX0_shr h0 (shr96_words_95 _ _), fun n hn => ?_, fun n _ => ?_⟩⟩
  · rw [← content_of_countExact hexact]
    exact leavesX0_shr h0 (shr96_zero _)
  · rw [← content_zero]
    exact leavesX0_shr h0 (shr96_of_ge _ hn)
  · refine ⟨_, exec_shr h0 n, fun i hi => ?_⟩
    rw [contentOf_val, getLsbD_shr96_of_ge _ hi]

end Sys2Proof.Machine
end

section
/-! SUPPORT. The population count (43_popcount.md). -/

namespace Sys2Proof.Machine

open Sys2Proof.Claim

/-- An exact count is the sum of the bits of the 96-bit value (10_state.md R21). -/
theorem pcnt_eq_bitSum_of_countExact {a : BitString} (h : a.countExact) : a.pcnt.toNat = bitSum (a.head ++ a.tail) := by
  rw [h, ← popcount_append, popcount_eq_bitSum]

/-- POPCNT (43_popcount.md R100) leaves everything but CNT and RKIND. -/
theorem exec_popcnt {s : State} (h0 : s.v0 = true) : exec .popcnt s = .next { s with cnt := s.x0.pcnt, rkind := .count } := by
  have hloaded : ∀ d ∈ readsOf .popcnt, s.v d = true := by simp [readsOf, accumulatorOnly, h0]
  rw [exec_eq, requireThen_loaded hloaded, effectOf, State.putCount]

/-- Settles O43: POPCNT keeps X[0] and V[0], so a second run writes the same count again. -/
theorem popcntWritesTheCachedCount : Obligations.PopcntWritesTheCachedCount := by
  unfold Obligations.PopcntWritesTheCachedCount
  refine ⟨⟨by decide, by decide⟩, fun s h0 => exec_popcnt h0, raisesUninit0_of_readsOf rfl, fun s h0 hexact => ?_⟩
  exact ⟨_, exec_popcnt h0, pcnt_eq_bitSum_of_countExact hexact, hexact.le, exec_popcnt h0⟩

end Sys2Proof.Machine
end

section
/-! SUPPORT. What a predicate does, once for every command that writes FLAG, and the ordering and equality predicates
(44_ordering.md). -/

namespace Sys2Proof.Machine

open Sys2Proof.Claim

/-! ## The commands that write FLAG from both operands -/

section

variable {i j : Instr} {f g : BitString → BitString → Bool}

theorem writesFlag_of_effectOf (hreads : readsOf i = bothRegisters)
    (heffect : ∀ s, effectOf i s = s.putFlag (f s.x0 s.x1)) : WritesFlag i f := by
  intro s h0 h1
  rw [exec_of_both_loaded hreads h0 h1, heffect, State.putFlag]

/-- On loaded operands a predicate leaves its own answer and no other. -/
theorem leavesFlag_iff_of_writesFlag (hwrites : WritesFlag i f) {s : State} {a b : BitString} {answer : Bool} :
    LeavesFlag i (operands s a b) answer ↔ f a b = answer := by
  have hexec := hwrites (operands s a b) rfl rfl
  constructor
  · rintro ⟨t, ht, rfl⟩
    cases hexec.symm.trans ht
    rfl
  · exact fun h => ⟨_, hexec, h⟩

/-- Predicates of complementary answers leave complementary flags. -/
theorem leavesFlag_iff_leavesFlag_not (hi : WritesFlag i f) (hj : WritesFlag j g) {s : State} {a b : BitString}
    {answer : Bool} (hnot : f a b = !g a b) :
    LeavesFlag i (operands s a b) answer ↔ LeavesFlag j (operands s a b) (!answer) := by
  rw [leavesFlag_iff_of_writesFlag hi, leavesFlag_iff_of_writesFlag hj, hnot, Bool.not_eq_eq_eq_not]

end

/-! ## What each predicate of the ordering family writes -/

theorem writesFlag_lt : WritesFlag .lt (fun a b => decide (a.pcnt.toNat < b.pcnt.toNat)) :=
  writesFlag_of_effectOf rfl fun _ => rfl

theorem writesFlag_gt : WritesFlag .gt (fun a b => decide (a.pcnt.toNat > b.pcnt.toNat)) :=
  writesFlag_of_effectOf rfl fun _ => rfl

theorem writesFlag_le : WritesFlag .le (fun a b => decide (a.pcnt.toNat ≤ b.pcnt.toNat)) :=
  writesFlag_of_effectOf rfl fun _ => rfl

theorem writesFlag_ge : WritesFlag .ge (fun a b => decide (a.pcnt.toNat ≥ b.pcnt.toNat)) :=
  writesFlag_of_effectOf rfl fun _ => rfl

/-- The machine compares the counts as numbers; equal numbers are equal counts. -/
theorem flagEq_eq_decide (a b : BitString) : flagEq a b = decide (a.pcnt = b.pcnt) :=
  decide_eq_decide.mpr BitVec.toNat_inj

theorem flagNe_eq_decide (a b : BitString) : flagNe a b = decide (a.pcnt ≠ b.pcnt) :=
  decide_eq_decide.mpr (not_congr BitVec.toNat_inj)

theorem writesFlag_eq : WritesFlag .eq (fun a b => decide (a.pcnt = b.pcnt)) :=
  writesFlag_of_effectOf rfl fun s => congrArg s.putFlag (flagEq_eq_decide s.x0 s.x1)

theorem writesFlag_ne : WritesFlag .ne (fun a b => decide (a.pcnt ≠ b.pcnt)) :=
  writesFlag_of_effectOf rfl fun s => congrArg s.putFlag (flagNe_eq_decide s.x0 s.x1)

theorem writesFlag_beq : WritesFlag .beq (fun a b => decide (a.head = b.head ∧ a.tail = b.tail)) :=
  writesFlag_of_effectOf rfl fun _ => rfl

/-! ## Words and counts -/

/-- Equal words with exact counts have equal counts (10_state.md R21). -/
theorem pcnt_eq_of_words_eq {a b : BitString} (ha : a.countExact) (hb : b.countExact) (hhead : a.head = b.head)
    (htail : a.tail = b.tail) : a.pcnt = b.pcnt := by
  rw [← content_of_countExact ha, ← content_of_countExact hb, hhead, htail]

/-! ## The statements of the ordering family -/

/-- Settles O45: no count is less than itself. -/
theorem ltComparesCounts : Obligations.LtComparesCounts := by
  unfold Obligations.LtComparesCounts
  refine ⟨⟨by decide, by decide⟩, writesFlag_lt, raisesUninit0_of_readsOf rfl, raisesUninit1_of_readsOf rfl,
    fun s a b heq => (leavesFlag_iff_of_writesFlag writesFlag_lt).mpr ?_⟩
  rw [heq]
  exact decide_eq_false (lt_irrefl _)

/-- Settles O46: no count is greater than itself, and GT's comparison is LT's read from the right. -/
theorem gtComparesCounts : Obligations.GtComparesCounts := by
  unfold Obligations.GtComparesCounts
  refine ⟨⟨by decide, by decide⟩, writesFlag_gt, raisesUninit0_of_readsOf rfl, raisesUninit1_of_readsOf rfl,
    fun s a b heq => (leavesFlag_iff_of_writesFlag writesFlag_gt).mpr ?_, fun s a b f => ?_⟩
  · rw [heq]
    exact decide_eq_false (lt_irrefl _)
  · exact (leavesFlag_iff_of_writesFlag writesFlag_gt).trans (leavesFlag_iff_of_writesFlag writesFlag_lt).symm

/-- Settles O47: every count is at most itself, and at most is not greater. -/
theorem leComparesCounts : Obligations.LeComparesCounts := by
  unfold Obligations.LeComparesCounts
  refine ⟨⟨by decide, by decide⟩, writesFlag_le, raisesUninit0_of_readsOf rfl, raisesUninit1_of_readsOf rfl,
    fun s a b heq => (leavesFlag_iff_of_writesFlag writesFlag_le).mpr ?_,
    fun s a b f => leavesFlag_iff_leavesFlag_not writesFlag_le writesFlag_gt ?_⟩
  · rw [heq]
    exact decide_eq_true le_rfl
  · rw [← decide_not, decide_eq_decide]
    exact not_lt.symm

/-- Settles O48: every count is at least itself, and at least is not less. -/
theorem geComparesCounts : Obligations.GeComparesCounts := by
  unfold Obligations.GeComparesCounts
  refine ⟨⟨by decide, by decide⟩, writesFlag_ge, raisesUninit0_of_readsOf rfl, raisesUninit1_of_readsOf rfl,
    fun s a b heq => (leavesFlag_iff_of_writesFlag writesFlag_ge).mpr ?_,
    fun s a b f => leavesFlag_iff_leavesFlag_not writesFlag_ge writesFlag_lt ?_⟩
  · rw [heq]
    exact decide_eq_true le_rfl
  · rw [← decide_not, decide_eq_decide]
    exact not_lt.symm

/-- Settles O49: the counts are compared, so two different patterns with one bit set compare equal. -/
theorem eqComparesCounts : Obligations.EqComparesCounts := by
  unfold Obligations.EqComparesCounts
  have hcounts : (content 0#64 0b1#32).pcnt = (content 0#64 0b10#32).pcnt := by decide
  exact ⟨⟨by decide, by decide⟩, writesFlag_eq, raisesUninit0_of_readsOf rfl, raisesUninit1_of_readsOf rfl,
    fun s => (leavesFlag_iff_of_writesFlag writesFlag_eq).mpr (decide_eq_true hcounts)⟩

/-- Settles O50: NE's comparison is the negation of EQ's. -/
theorem neComparesCounts : Obligations.NeComparesCounts := by
  unfold Obligations.NeComparesCounts
  exact ⟨⟨by decide, by decide⟩, writesFlag_ne, raisesUninit0_of_readsOf rfl, raisesUninit1_of_readsOf rfl,
    fun s a b f => leavesFlag_iff_leavesFlag_not writesFlag_ne writesFlag_eq decide_not⟩

/-- Settles O51: exact counts follow the words, and two different patterns with two bits set separate BEQ from EQ. -/
theorem beqComparesBitPatterns : Obligations.BeqComparesBitPatterns := by
  unfold Obligations.BeqComparesBitPatterns
  have hcounts : (content 0#64 0b1100#32).pcnt = (content 0#64 0b0011#32).pcnt := by decide
  refine ⟨⟨by decide, by decide⟩, writesFlag_beq, raisesUninit0_of_readsOf rfl, raisesUninit1_of_readsOf rfl,
    fun s a b ha hb hbeq => ?_, fun s => ⟨?_, ?_⟩⟩
  · obtain ⟨hhead, htail⟩ := of_decide_eq_true ((leavesFlag_iff_of_writesFlag writesFlag_beq).mp hbeq)
    exact (leavesFlag_iff_of_writesFlag writesFlag_eq).mpr (decide_eq_true (pcnt_eq_of_words_eq ha hb hhead htail))
  · exact (leavesFlag_iff_of_writesFlag writesFlag_beq).mpr (decide_eq_false fun ⟨_, htail⟩ => absurd htail (by decide))
  · exact (leavesFlag_iff_of_writesFlag writesFlag_eq).mpr (decide_eq_true hcounts)

end Sys2Proof.Machine
end

section
/-! SUPPORT. Subset inclusion (45_inclusion.md). -/

namespace Sys2Proof.Machine

open Sys2Proof.Claim

theorem writesFlag_incl :
    WritesFlag .incl (fun a b => decide (a.head &&& b.head = b.head ∧ a.tail &&& b.tail = b.tail)) :=
  writesFlag_of_effectOf rfl fun _ => rfl

/-- INCL answers true exactly when X[0] keeps every bit of X[1], on each lane (45_inclusion.md R120). -/
theorem leavesFlag_incl_iff {s : State} {a b : BitString} :
    LeavesFlag .incl (operands s a b) true ↔ a.head &&& b.head = b.head ∧ a.tail &&& b.tail = b.tail :=
  (leavesFlag_iff_of_writesFlag writesFlag_incl).trans decide_eq_true_iff

/-- Settles O53: the corner cases are the zero, the idempotence and the unit of AND on each lane. -/
theorem inclTestsSubsetInclusion : Obligations.InclTestsSubsetInclusion := by
  unfold Obligations.InclTestsSubsetInclusion
  refine ⟨⟨by decide, by decide⟩, writesFlag_incl, raisesUninit0_of_readsOf rfl, raisesUninit1_of_readsOf rfl,
    fun s a b => ⟨fun ⟨hhead, htail⟩ => ?_, ?_, fun ⟨hhead, htail⟩ => ?_, fun ⟨hhead, htail⟩ => ?_⟩⟩ <;>
    rw [leavesFlag_incl_iff]
  · rw [hhead, htail]
    exact ⟨BitVec.and_zero, BitVec.and_zero⟩
  · exact ⟨BitVec.and_self, BitVec.and_self⟩
  · rw [hhead, htail, BitVec.and_allOnes, BitVec.and_allOnes]
  · rw [hhead, htail, BitVec.zero_and, BitVec.zero_and, eq_comm, eq_comm (a := 0#32)]

end Sys2Proof.Machine
end

section
/-! SUPPORT. The rendering of a word and of a value, character by character (46_readout.md R125). -/

namespace Sys2Proof.Machine

variable {n : Nat}

@[simp] theorem length_renderBits (v : BitVec n) : (renderBits v).length = n := by simp [renderBits]

theorem getElem?_renderBits (v : BitVec n) {j : Nat} (hj : j < n) :
    (renderBits v)[j]? = some (if v.getLsbD (n - 1 - j) then '1' else '0') := by simp [renderBits, hj]

/-- The most significant bit comes first, so the high word's characters stand before the low word's. -/
theorem renderBits_append {m : Nat} (h : BitVec m) (t : BitVec n) :
    renderBits (h ++ t) = renderBits h ++ renderBits t := by
  refine List.ext_getElem? fun j => ?_
  obtain hhead | htail | hpast : j < m ∨ (m ≤ j ∧ j < m + n) ∨ m + n ≤ j := by omega
  · have hhigh : ¬ m + n - 1 - j < n := by omega
    have hbit : m + n - 1 - j - n = m - 1 - j := by omega
    rw [List.getElem?_append_left (by simpa), getElem?_renderBits _ (by omega), getElem?_renderBits _ hhead,
      BitVec.getLsbD_append, if_neg hhigh, hbit]
  · have hlow : m + n - 1 - j < n := by omega
    have hbit : m + n - 1 - j = n - 1 - (j - m) := by omega
    rw [List.getElem?_append_right (by simpa using htail.1), length_renderBits, getElem?_renderBits _ htail.2,
      getElem?_renderBits _ (by omega), BitVec.getLsbD_append, if_pos hlow, hbit]
  · rw [List.getElem?_eq_none (by simpa), List.getElem?_eq_none (by simpa)]

/-- The head's characters and then the tail's are the characters of the 96-bit value read as one word. -/
theorem render_eq_renderBits (v : Value) : render v = renderBits v := by
  calc render v = renderBits (mk96 v).val := (renderBits_append _ _).symm
    _ = renderBits v := by rw [mk96_val]

/-- Settles O55: the rendering is that of one 96-bit word, most significant bit first. -/
theorem renderIsTheCanonicalText : Obligations.RenderIsTheCanonicalText := by
  unfold Obligations.RenderIsTheCanonicalText
  intro v
  rw [render_eq_renderBits]
  exact ⟨length_renderBits v, fun _ hj => getElem?_renderBits v hj⟩

end Sys2Proof.Machine
end

section
/-! SUPPORT. The outcomes of a command word: completion, BAD and UNINIT (60_exceptions.md R130 to R137), and the block at rest
(R147). -/

namespace Sys2Proof.Machine

open Sys2Proof.Claim

variable {i : Instr} {s t : State} {w : CmdWord} {rest : List HostInput}

/-! ## Between commands, and a BAD word -/

theorem step_of_no_input (h : s.input = []) : step s = .next s := by
  unfold step takeInput
  rw [h]

theorem step_of_bad {r : BadReason} (hin : s.input = .command w :: rest) (hbad : decode w = .bad r) :
    step s = .next { s with input := rest, rkind := .bad } := by
  rw [step_input hin, runInput_command, runWord_of_bad hbad]
  rfl

/-- Settles O9: the step is the rejection of the word, which sets RKIND. -/
theorem badWordWritesOnlyRkind : Obligations.BadWordWritesOnlyRkind := by
  unfold Obligations.BadWordWritesOnlyRkind
  intro s w rest r hin hbad
  exact step_of_bad hin hbad

/-- Settles O10: with no input the step is the identity, and a read records its port's answer. -/
theorem blockHoldsItsStateBetweenCommands : Obligations.BlockHoldsItsStateBetweenCommands := by
  unfold Obligations.BlockHoldsItsStateBetweenCommands
  refine ⟨fun s h => step_of_no_input h, fun s p rest hin => ⟨s.readPort p, ?_⟩⟩
  have hread := step_read s p rest
  rwa [← hin] at hread

/-! ## Completion -/

theorem State.put_fault (s : State) (r : Written) : (s.put r).fault = s.fault := by cases r <;> simp [State.put]

theorem State.put_fcause (s : State) (r : Written) : (s.put r).fcause = s.fcause := by cases r <;> simp [State.put]

theorem kindOf_ne_bad (i : Instr) : kindOf i ≠ .bad := by cases i <;> simp [kindOf]

theorem kindOf_ne_fault (i : Instr) : kindOf i ≠ .fault := by cases i <;> simp [kindOf]

/-- A command whose registers are loaded puts its result into the state (60_exceptions.md R133). -/
theorem exec_of_loaded (h : ∀ d ∈ readsOf i, s.v d = true) : exec i s = .next (s.put (writtenBy i s.x)) := by
  rw [exec_eq, requireThen_loaded h, effectOf_eq_put]

/-- Settles O18: the command puts its result into the state, which sets RKIND to its kind and leaves FAULT and FCAUSE. -/
theorem commandsOnLoadedRegistersComplete : Obligations.CommandsOnLoadedRegistersComplete := by
  unfold Obligations.CommandsOnLoadedRegistersComplete
  intro i s hloaded
  exact ⟨_, exec_of_loaded hloaded, by simp, s.put_fault _, s.put_fcause _⟩

/-! ## The order of require -/

/-- A row of 10_state.md R26 that reads X[0] requires it first (60_exceptions.md R137). -/
theorem readsOf_of_x0_mem (h : .x0 ∈ readsOf i) : ∃ rest, readsOf i = .x0 :: rest := by
  cases i with
  | ldw d head tail | ldpz d => cases h
  | ldpc d ch => cases d with
    | x0 => exact ⟨_, rfl⟩
    | x1 => simp [readsOf] at h
  | _ => exact ⟨_, rfl⟩

/-- A row of 10_state.md R26 that reads X[1] reads nothing else, or X[0] before it (60_exceptions.md R137). -/
theorem readsOf_of_x1_mem (h : .x1 ∈ readsOf i) : readsOf i = [.x1] ∨ readsOf i = bothRegisters := by
  cases i with
  | ldw d head tail | ldpz d => cases h
  | ldpc d ch => cases d with
    | x0 => simp [readsOf] at h
    | x1 => exact .inl rfl
  | not | shl n | shr n | popcnt => simp [readsOf, accumulatorOnly] at h
  | _ => exact .inr rfl

/-- A command that reads X[1] alone raises UNINIT(1) whatever X[0] is. -/
theorem exec_of_x1_alone (hreads : readsOf i = [.x1]) (h1 : s.v1 = false) :
    exec i s = .next (afterUninit s .uninit1) := by
  rw [exec_eq, requireThen_unloaded (d := .x1) (by simp [hreads, h1]), raiseUninit_eq_afterUninit, causeOf]

/-- Settles O19: X[0] comes first in every row that reads it, and decode comes before both. -/
theorem firstUnloadedRegisterRaisesUninit : Obligations.FirstUnloadedRegisterRaisesUninit := by
  unfold Obligations.FirstUnloadedRegisterRaisesUninit
  refine ⟨fun i s hreads h0 => ?_, fun i s hreads h1 h0 => ?_, fun s w rest r hin hbad => ?_⟩
  · obtain ⟨rest, hrow⟩ := readsOf_of_x0_mem hreads
    exact raisesUninit0_of_readsOf hrow s h0
  · rcases readsOf_of_x1_mem hreads with hrow | hrow
    · exact exec_of_x1_alone hrow h1
    · exact raisesUninit1_of_readsOf hrow s (h0 (by simp [hrow, bothRegisters])) h1
  · exact ⟨_, step_of_bad hin hbad, rfl, rfl, rfl⟩

/-! ## The three outcomes -/

/-- Validity does not depend on what the host does next. -/
theorem State.v_withInput (s : State) (rest : List HostInput) (d : Reg) : { s with input := rest }.v d = s.v d := by
  cases d <;> rfl

/-- The three outcomes of a command word, with what decides between them (60_exceptions.md R130). -/
theorem runWord_outcome (h : runWord w s = .next t) :
    (∃ i, decode w = .command i ∧ (∀ d ∈ readsOf i, s.v d = true) ∧ t = s.put (writtenBy i s.x)) ∨
      (∃ r, decode w = .bad r ∧ t = s.rejectBad) ∨
      (∃ i, ∃ d ∈ readsOf i, decode w = .command i ∧ s.v d = false ∧ t = s.raiseUninit d) := by
  rcases runWord_cases h with ⟨i, hd, hexec⟩ | ⟨r, hd, ht⟩
  · rcases exec_cases hexec with ⟨hloaded, ht⟩ | ⟨d, hreads, -, hv, ht⟩
    · exact .inl ⟨i, hd, firstUnloaded_eq_none.mp hloaded, ht.trans (effectOf_eq_put i s)⟩
    · exact .inr (.inr ⟨i, d, hreads, hd, hv, ht⟩)
  · exact .inr (.inl ⟨r, hd, ht⟩)

theorem runWord_input (h : runWord w s = .next t) : t.input = s.input := by
  rcases runWord_cases h with ⟨i, -, hexec⟩ | ⟨r, -, rfl⟩
  · exact (exec_outside hexec).1
  · rfl

/-- Settles O17: decode, and then the valid bits of the registers read, decide the outcome, and each outcome sets its RKIND. -/
theorem everyCommandWordHasExactlyOneOutcome : Obligations.EveryCommandWordHasExactlyOneOutcome := by
  unfold Obligations.EveryCommandWordHasExactlyOneOutcome
  intro s w rest hin
  obtain ⟨t, ht⟩ := runWord_next w { s with input := rest }
  refine ⟨t, by rw [step_input hin, runInput_command, ht], runWord_input ht, ?_⟩
  rcases runWord_outcome ht with ⟨i, hd, hloaded, rfl⟩ | ⟨r, hd, rfl⟩ | ⟨i, d, hreads, hd, hv, rfl⟩
  · simp only [State.v_withInput] at hloaded
    exact .inl ⟨i, hd, hloaded, by simp, kindOf_ne_bad i, kindOf_ne_fault i⟩
  · exact .inr (.inl ⟨⟨r, hd⟩, rfl⟩)
  · rw [State.v_withInput] at hv
    exact .inr (.inr ⟨i, d, hreads, hd, hv, rfl⟩)

/-! ## After a fault (60_exceptions.md R136) -/

/-- A second UNINIT changes only RKIND: the first cause stands and FAULT is set already. -/
theorem raiseUninit_of_fault (h : s.fault = true) (d : Reg) : s.raiseUninit d = { s with rkind := .fault } := by
  simp [State.raiseUninit, h]

/-- A command whose RKIND is FAULT raised UNINIT. -/
theorem exec_rkind_fault (h : exec i s = .next t) (hk : t.rkind = .fault) : ∃ d, t = s.raiseUninit d := by
  rcases exec_cases_put h with rfl | hraised
  · exact absurd (by simpa using hk) (kindOf_ne_fault i)
  · exact hraised

/-- Putting a result into a state and recording a fault in it commute. -/
theorem State.put_withFault (s : State) (r : Written) (fault : Bool) (cause : FCause) :
    { s with fault := fault, fcause := cause }.put r = { s.put r with fault := fault, fcause := cause } := by
  cases r with
  | loaded d b => cases d <;> rfl
  | _ => rfl

/-- What a command does with FAULT set and with FAULT clear differs in FAULT and FCAUSE only. -/
theorem exec_withFault (i : Instr) (s : State) (cause : FCause) :
    ∃ t u, exec i { s with fault := true, fcause := cause } = .next t
      ∧ exec i { s with fault := false, fcause := .none } = .next u
      ∧ t = { u with fault := true, fcause := cause } := by
  have hv (d : Reg) : { s with fault := true, fcause := cause }.v d = { s with fault := false, fcause := .none }.v d := by
    cases d <;> rfl
  rcases exec_congr (i := i) (fun d _ => hv d) rfl with ⟨hset, hclear⟩ | ⟨d, hset, hclear⟩
  · exact ⟨_, _, hset, hclear, by simp only [State.put_withFault]⟩
  · exact ⟨_, _, hset, hclear, rfl⟩

/-- No command word clears FAULT or changes the first cause. -/
theorem runWord_keeps_fault (h : runWord w s = .next t) (hf : s.fault = true) : t.fault = true ∧ t.fcause = s.fcause := by
  rcases runWord_outcome h with ⟨i, -, -, rfl⟩ | ⟨r, -, rfl⟩ | ⟨i, d, -, -, -, rfl⟩
  · exact ⟨(s.put_fault _).trans hf, s.put_fcause _⟩
  · exact ⟨hf, rfl⟩
  · rw [raiseUninit_of_fault hf]
    exact ⟨hf, rfl⟩

/-- Settles O20: a second UNINIT changes RKIND only, FAULT and FCAUSE decide nothing a command does, and no command word
changes them then, while reset clears them. -/
theorem commandsAfterAFaultRunAndKeepTheFirstCause : Obligations.CommandsAfterAFaultRunAndKeepTheFirstCause := by
  unfold Obligations.CommandsAfterAFaultRunAndKeepTheFirstCause
  refine ⟨fun i s t hf hexec hk => ?_, exec_withFault, fun s t w rest hin hf hstep => ?_, fun s rest hin => ?_⟩
  · obtain ⟨d, rfl⟩ := exec_rkind_fault hexec hk
    exact raiseUninit_of_fault hf d
  · rw [step_input hin, runInput_command] at hstep
    exact runWord_keeps_fault (s := { s with input := rest }) hstep hf
  · exact ⟨_, by rw [step_input hin, runInput_reset], by simp⟩

end Sys2Proof.Machine
end

section
/-! SUPPORT. Decode and encode are inverse, and the decoder against the rows of the opcode table (30_encoding.md R51 to
R61). -/

namespace Sys2Proof

open Sys2Proof.Claim

variable {i : Instr} {w : CmdWord}

/-! ## The word of a command -/

theorem encodedShape (i : Instr) : Laws.EncodedShape.Statement i := by
  cases i with
  | shl n => exact Laws.EncodedShape.shl n
  | shr n => exact Laws.EncodedShape.shr n
  | ldw d head tail => exact Laws.EncodedShape.ldw d head tail
  | ldpz d => exact Laws.EncodedShape.ldpz d
  | ldpc d ch => exact Laws.EncodedShape.ldpc d ch
  | _ => exact ⟨fieldOp_packWord _ _ _ _ _, packR_within _⟩

/-- A shift amount that fits its field survives it, and every other operand has its field's width (30_encoding.md R54). -/
theorem selectCommand_encode (h : i.wf = true) : selectCommand (encode i) = some i := by
  cases i with
  | shl n | shr n => simpa [encode, packS, Instr.opcode, commandOf, Instr.wf, shiftAmountFits] using h
  | _ => simp [encode, packR, packW, packZ, packC, Instr.opcode, commandOf]

theorem decode_encode (h : i.wf = true) : decode (encode i) = .command i :=
  decode_encode_of_selectCommand (encodedShape i) (selectCommand_encode h)

/-- Settles O2: the word selects its own command and has nothing outside the live fields of the command's format. -/
theorem decodeOfEncodeIsTheCommand : Obligations.DecodeOfEncodeIsTheCommand := by
  unfold Obligations.DecodeOfEncodeIsTheCommand
  exact fun i h => decode_encode h

/-! ## The command of a word -/

/-- Decode answers a command exactly when the word selects it and has no bit outside its live fields (30_encoding.md
R58). -/
theorem decode_eq_command_iff :
    decode w = .command i ↔ selectCommand w = some i ∧ w &&& ~~~ liveMask i.format = 0#128 := by
  unfold decode
  cases selectCommand w with
  | none => simp
  | some j =>
    simp only [Option.some.injEq]
    constructor
    · split <;> rintro ⟨rfl⟩
      exact ⟨rfl, ‹_›⟩
    · rintro ⟨rfl, hdead⟩
      exact if_pos hdead

section Fields

variable {op : BitVec 5} {d : BitVec 1} {ch : CharCode} {imm32 : Tail} {imm64 : Head}

/-- A shift amount taken from IMM32 fits it. -/
theorem wf_of_commandOf (h : commandOf op d ch imm32 imm64 = some i) : i.wf = true := by
  obtain rfl := opcode_of_commandOf h
  cases i with
  | shl n | shr n =>
    obtain rfl : imm32.toNat = n := by simpa [commandOf, Instr.opcode] using h
    exact decide_eq_true imm32.isLt
  | _ => rfl

/-- The command that fields select carries those of its live fields, so with the dead fields 0 its word is theirs. -/
theorem encode_of_commandOf (h : commandOf op d ch imm32 imm64 = some i)
    (hd : d = 0#1 ∨ i.format = .w ∨ i.format = .z ∨ i.format = .c) (hch : ch = 0#8 ∨ i.format = .c)
    (h32 : imm32 = 0#32 ∨ i.format = .s ∨ i.format = .w) (h64 : imm64 = 0#64 ∨ i.format = .w) :
    encode i = packWord op d ch imm32 imm64 := by
  obtain rfl := opcode_of_commandOf h
  cases i with
  | shl n | shr n =>
    obtain rfl : imm32.toNat = n := by simpa [commandOf, Instr.opcode] using h
    simp_all [Instr.format, encode, packS]
  | ldw r head tail =>
    obtain ⟨rfl, rfl, rfl⟩ : regOfBit d = r ∧ imm64 = head ∧ imm32 = tail := by
      simpa [commandOf, Instr.opcode] using h
    simp_all [Instr.format, encode, packW, Instr.opcode]
  | ldpz r =>
    obtain rfl : regOfBit d = r := by simpa [commandOf, Instr.opcode] using h
    simp_all [Instr.format, encode, packZ, Instr.opcode]
  | ldpc r c =>
    obtain ⟨rfl, rfl⟩ : regOfBit d = r ∧ ch = c := by simpa [commandOf, Instr.opcode] using h
    simp_all [Instr.format, encode, packC, Instr.opcode]
  | _ => simp_all [Instr.format, encode, packR]

end Fields

theorem encode_of_decode (h : decode w = .command i) : encode i = w := by
  obtain ⟨hselect, hdead⟩ := decode_eq_command_iff.mp h
  obtain ⟨hA, hB, hd, hch, h32, h64⟩ := (and_not_liveMask_eq_zero_iff w i.format).mp hdead
  exact (encode_of_commandOf hselect hd hch h32 h64).trans (packWord_fields hA hB)

/-- Settles O3: the live fields of the word are the command's operands, and its dead fields are 0. -/
theorem encodeOfDecodeIsTheWord : Obligations.EncodeOfDecodeIsTheWord := by
  unfold Obligations.EncodeOfDecodeIsTheWord
  exact fun w i h => ⟨wf_of_commandOf (decode_eq_command_iff.mp h).1, encode_of_decode h⟩

/-- Settles O1, by running the decoder on the eight words. -/
theorem wordsOfTheSpecDecode : Obligations.WordsOfTheSpecDecode := by
  unfold Obligations.WordsOfTheSpecDecode
  decide

/-! ## The rows of the opcode table -/

/-- The row of spec/opcode_table.json a command falls under: every bit but those of its operands, at the opcode's value. -/
def tableRow (i : Instr) : CmdWord × CmdWord := (~~~ liveMask i.format ||| maskOp, i.opcode.setWidth 128)

/-- The command of a row whose operands are all zero. -/
def rowCommand : Instr → Instr
  | .shl _ => .shl 0
  | .shr _ => .shr 0
  | .ldw _ _ _ => .ldw .x0 0#64 0#32
  | .ldpz _ => .ldpz .x0
  | .ldpc _ _ => .ldpc .x0 0#8
  | i => i

/-- One command of each row, in the table's order. -/
def rowCommands : List Instr :=
  [.and, .or, .xor, .not, .shl 0, .shr 0, .popcnt, .lt, .gt, .le, .ge, .eq, .ne, .incl, .beq, .ldw .x0 0#64 0#32, .ldpz .x0,
    .ldpc .x0 0#8]

theorem rowCommand_mem (i : Instr) : rowCommand i ∈ rowCommands := by cases i <;> simp [rowCommand, rowCommands]

theorem tableRow_rowCommand (i : Instr) : tableRow (rowCommand i) = tableRow i := by cases i <;> rfl

theorem opcodeTable_eq : opcodeTable = rowCommands.map tableRow := by decide

/-- The table's rows are those of the commands. -/
theorem mem_opcodeTable_iff {row : CmdWord × CmdWord} : row ∈ opcodeTable ↔ ∃ i, tableRow i = row := by
  rw [opcodeTable_eq, List.mem_map]
  constructor
  · rintro ⟨i, -, hi⟩
    exact ⟨i, hi⟩
  · rintro ⟨i, rfl⟩
    exact ⟨rowCommand i, rowCommand_mem i, tableRow_rowCommand i⟩

theorem getLsbD_maskOp (k : Nat) : maskOp.getLsbD k = decide (k < 5) := by
  have hmask : maskOp = packWord (BitVec.allOnes 5) 0#1 0#8 0#32 0#64 := by decide
  rw [hmask, getLsbD_packWord, BitVec.getLsbD_allOnes]
  split_ifs <;> simp [*]

/-- OP is live in every format (30_encoding.md R52). -/
theorem getLsbD_liveMask_of_lt (f : Format) {k : Nat} (hk : k < 5) : (liveMask f).getLsbD k = true := by
  rw [liveMask_eq]
  cases f <;> simp only [getLsbD_packWord, hk, if_true, BitVec.getLsbD_allOnes, decide_true]

/-- Under the row's mask a word keeps OP and the bits outside the live fields. -/
theorem getLsbD_and_tableRow (w : CmdWord) (i : Instr) {k : Nat} (hk : k < 128) :
    (w &&& (tableRow i).1).getLsbD k =
      if k < 5 then (fieldOp w).getLsbD k else (w &&& ~~~ liveMask i.format).getLsbD k := by
  rw [tableRow, BitVec.getLsbD_and, BitVec.getLsbD_or, getLsbD_maskOp, getLsbD_and_not]
  by_cases hop : k < 5 <;> simp [hop, hk, fieldOp]

/-- A word falls under a command's row when it has the opcode and nothing outside the live fields of the format. -/
theorem and_tableRow_iff (w : CmdWord) (i : Instr) :
    w &&& (tableRow i).1 = (tableRow i).2 ↔ fieldOp w = i.opcode ∧ w &&& ~~~ liveMask i.format = 0#128 := by
  have hrow {k : Nat} (hk : k < 128) : (tableRow i).2.getLsbD k = if k < 5 then i.opcode.getLsbD k else false := by
    rw [tableRow, BitVec.getLsbD_setWidth]
    split_ifs with hop
    · simp [hk]
    · simp [BitVec.getLsbD_of_ge i.opcode k (by omega)]
  constructor
  · intro h
    refine ⟨BitVec.eq_of_getLsbD_eq fun k hk => ?_, BitVec.eq_of_getLsbD_eq fun k hk => ?_⟩
    · have hk' : k < 128 := by omega
      have hbit := congrArg (BitVec.getLsbD · k) h
      simpa only [getLsbD_and_tableRow w i hk', hrow hk', if_pos hk] using hbit
    · by_cases hop : k < 5
      · rw [getLsbD_and_not, getLsbD_liveMask_of_lt _ hop]
        simp
      · have hbit := congrArg (BitVec.getLsbD · k) h
        simpa only [getLsbD_and_tableRow w i hk, hrow hk, if_neg hop, BitVec.getLsbD_zero] using hbit
  · rintro ⟨hop, hdead⟩
    refine BitVec.eq_of_getLsbD_eq fun k hk => ?_
    rw [getLsbD_and_tableRow w i hk, hrow hk, hop, hdead, BitVec.getLsbD_zero]

/-- OP alone decides which row's command a word selects. -/
theorem selectCommand_of_opcode (h : fieldOp w = i.opcode) :
    ∃ j, selectCommand w = some j ∧ j.format = i.format := by
  unfold selectCommand
  rw [h]
  cases i <;> exact ⟨_, rfl, rfl⟩

/-- Settles O4: a word that selects a command with its dead fields 0 falls under that command's row, and a row's opcode
selects a command of the row's format. -/
theorem decodeAcceptsExactlyTheOpcodeTable : Obligations.DecodeAcceptsExactlyTheOpcodeTable := by
  unfold Obligations.DecodeAcceptsExactlyTheOpcodeTable
  intro w
  constructor
  · rintro ⟨i, h⟩
    obtain ⟨hselect, hdead⟩ := decode_eq_command_iff.mp h
    exact ⟨tableRow i, mem_opcodeTable_iff.mpr ⟨i, rfl⟩,
      (and_tableRow_iff w i).mpr ⟨(opcode_of_selectCommand hselect).symm, hdead⟩⟩
  · rintro ⟨row, hrow, hmatch⟩
    obtain ⟨i, rfl⟩ := mem_opcodeTable_iff.mp hrow
    obtain ⟨hop, hdead⟩ := (and_tableRow_iff w i).mp hmatch
    obtain ⟨j, hselect, hformat⟩ := selectCommand_of_opcode hop
    exact ⟨j, decode_eq_command_iff.mpr ⟨hselect, hformat ▸ hdead⟩⟩

/-! ## A word on the command port, and bytes that are no word -/

theorem decodeBytes_of_length {bs : List Byte} (h : bs.length = 16) :
    decodeBytes bs = .word (decode (wordOfBytesLE bs)) := by
  rw [decodeBytes, wordOfBytes_of_length h]

theorem wordOfBytes_of_length_ne {bs : List Byte} (h : bs.length ≠ 16) : wordOfBytes bs = none := if_neg h

theorem decodeBytes_of_length_ne {bs : List Byte} (h : bs.length ≠ 16) : decodeBytes bs = .partialWord bs.length := by
  rw [decodeBytes, wordOfBytes_of_length_ne h]

namespace Machine

/-- A partial word stops the step by name (20_memory.md R43). -/
theorem runBytes_of_length_ne {bs : List Byte} (h : bs.length ≠ 16) (s : State) :
    runBytes bs s = .refused (.partialWord bs.length) := by
  rw [runBytes, wordOfBytes_of_length_ne h]

/-- Settles O7: 16 bytes are a word, and any other number of bytes stops decode and the step by name. -/
theorem partialWordNeverReachesTheDecoder : Obligations.PartialWordNeverReachesTheDecoder := by
  unfold Obligations.PartialWordNeverReachesTheDecoder
  refine ⟨fun bs => ⟨fun h => ⟨_, decodeBytes_of_length h⟩, ?_⟩, fun s bs rest h => ⟨decodeBytes_of_length_ne h, ?_⟩⟩
  · rintro ⟨r, hword⟩
    by_contra h
    rw [decodeBytes_of_length_ne h] at hword
    cases hword
  · rw [step_input rfl]
    exact runBytes_of_length_ne h _

theorem runWord_of_command (h : decode w = .command i) (s : State) : runWord w s = exec i s := by
  rw [runWord, h]

/-- Settles O8: the step takes the word from the port, and the decoder hands its command to exec. -/
theorem stepRunsTheDecodedCommand : Obligations.StepRunsTheDecodedCommand := by
  unfold Obligations.StepRunsTheDecodedCommand
  intro s w rest i hin hdecode
  rw [step_input hin, runInput_command, runWord_of_command hdecode]

end Machine

end Sys2Proof
end

section
/-! SUPPORT. Reset, reads during a command, and what the contents of unloaded registers can show (10_state.md R33, R34,
70_reset_and_hazards.md R150 to R157). -/

namespace Sys2Proof.Machine

open Sys2Proof.Claim

variable {s t u : State} {w : CmdWord} {rest : List HostInput}

/-! ## The state after reset -/

/-- Settles O11, by evaluating the ports and one step of the reset state. -/
theorem resetStateIsUnloadedAndClear : Obligations.ResetStateIsUnloadedAndClear := by
  unfold Obligations.ResetStateIsUnloadedAndClear
  exact ⟨rfl, rfl, by decide, rfl, rfl, step_of_no_input rfl⟩

/-- Settles O14: nothing is loaded, nothing has been observed, and RKIND NONE says what reset leaves. -/
theorem invariantHoldsAfterReset : Obligations.InvariantHoldsAfterReset := by
  unfold Obligations.InvariantHoldsAfterReset
  exact .of_parts (fun d hv => by cases d <;> cases hv) (by decide) (by decide) ⟨rfl, rfl, rfl, rfl, rfl⟩ nofun

/-! ## What no input but reset undoes (70_reset_and_hazards.md R150) -/

/-- No valid bit, FAULT or first cause of a state is lost in another. -/
structure State.Keeps (s t : State) : Prop where
  v0 : s.v0 = true → t.v0 = true
  v1 : s.v1 = true → t.v1 = true
  fault : s.fault = true → t.fault = true ∧ t.fcause = s.fcause

/-- The register a result goes to is loaded after it. -/
theorem State.put_v_register (s : State) {r : Written} {d : Reg} (h : r.register = some d) : (s.put r).v d = true := by
  cases r with
  | flag f | count c => cases h
  | bits b | loaded e b => cases h; simp [State.put]

/-- A result sets a valid bit or leaves it. -/
theorem State.put_v_of_loaded {d : Reg} (r : Written) (h : s.v d = true) : (s.put r).v d = true := by
  by_cases hd : r.register = some d
  · exact s.put_v_register hd
  · rw [(s.put_register_other r hd).2, h]

theorem runWord_keeps_v (h : runWord w s = .next t) {d : Reg} (hv : s.v d = true) : t.v d = true := by
  rcases runWord_outcome h with ⟨i, -, -, rfl⟩ | ⟨r, -, rfl⟩ | ⟨i, e, -, -, -, rfl⟩
  · exact State.put_v_of_loaded _ hv
  · simpa using hv
  · simpa using hv

theorem runWord_keeps (h : runWord w s = .next t) : s.Keeps t where
  v0 := runWord_keeps_v h (d := .x0)
  v1 := runWord_keeps_v h (d := .x1)
  fault := runWord_keeps_fault h

/-- Reads during a command write only the host's record. -/
theorem State.Keeps.observeDuring {before after : State} (h : s.Keeps t) (ports : List ReadPort) :
    s.Keeps (Machine.observeDuring before after ports t) := by
  induction ports generalizing t with
  | nil => exact h
  | cons p ports ih => exact ih ⟨h.v0, h.v1, h.fault⟩

/-- Every input keeps valid bits, FAULT and the first cause, or is one of the two resets. -/
theorem runInput_keeps {input : HostInput} (h : runInput input s = .next t) :
    s.Keeps t ∨ input = .reset ∨ ∃ w, input = .resetDuring w := by
  cases input with
  | command w => exact .inl (runWord_keeps h)
  | commandBytes bs =>
    obtain ⟨w, -, hw⟩ := runBytes_cases h
    exact .inl (runWord_keeps hw)
  | commandWithReads w ports =>
    obtain ⟨u, hu, rfl⟩ := runWordWithReads_cases h
    exact .inl ((runWord_keeps hu).observeDuring ports)
  | read p =>
    cases h
    exact .inl ⟨id, id, fun hf => ⟨hf, rfl⟩⟩
  | reset => exact .inr (.inl rfl)
  | resetDuring w => exact .inr (.inr ⟨w, rfl⟩)

/-- What is kept is not cleared (70_reset_and_hazards.md R150). -/
theorem State.Keeps.not_cleared (h : s.Keeps t) :
    ¬ ((s.v0 = true ∧ t.v0 = false) ∨ (s.v1 = true ∧ t.v1 = false) ∨ (s.fault = true ∧ t.fault = false)
        ∨ (s.fault = true ∧ t.fcause ≠ s.fcause)) := by
  rintro (⟨hs, ht⟩ | ⟨hs, ht⟩ | ⟨hs, ht⟩ | ⟨hs, ht⟩)
  · exact Bool.false_ne_true (ht.symm.trans (h.v0 hs))
  · exact Bool.false_ne_true (ht.symm.trans (h.v1 hs))
  · exact Bool.false_ne_true (ht.symm.trans (h.fault hs).1)
  · exact ht (h.fault hs).2

/-- The ports after reset: STATUS is 0 and neither register has a value (70_reset_and_hazards.md R154). -/
theorem readPort_applyReset (s : State) :
    s.applyReset.readPort .status = .status 0#32 ∧ ∀ d, s.applyReset.readPort (.x d) = .x d none :=
  ⟨congrArg PortValue.status (by decide : State.reset.statusWord = 0#32), fun d => readPort_unloaded (by cases d <;> rfl)⟩

/-- Settles O12: reset writes every piece of the block's state, and every other input keeps what R150 names. -/
theorem resetClearsTheBlockAndNothingElseDoes : Obligations.ResetClearsTheBlockAndNothingElseDoes := by
  unfold Obligations.ResetClearsTheBlockAndNothingElseDoes
  refine ⟨fun s rest hin => ?_, fun s t hstep hcleared => ?_⟩
  · obtain ⟨hstatus, hx⟩ := readPort_applyReset { s with input := rest }
    exact ⟨_, by rw [step_input hin, runInput_reset], rfl, rfl, rfl, rfl, rfl, rfl, rfl, hstatus, hx, rfl, rfl⟩
  · rcases step_cases hstep with ⟨-, rfl⟩ | ⟨input, rest, hin, hrun⟩
    · exact absurd hcleared (State.Keeps.not_cleared ⟨id, id, fun hf => ⟨hf, rfl⟩⟩)
    · rcases runInput_keeps hrun with ⟨h0, h1, hf⟩ | rfl | ⟨w, rfl⟩
      · exact absurd hcleared (State.Keeps.not_cleared ⟨h0, h1, hf⟩)
      · exact .inl ⟨rest, hin⟩
      · exact .inr ⟨w, rest, hin⟩

/-! ## Reset and reads during a command -/

theorem runWord_outside (h : runWord w s = .next t) :
    t.input = s.input ∧ t.observed = s.observed ∧ t.midReads = s.midReads := by
  rcases runWord_cases h with ⟨i, -, hexec⟩ | ⟨r, -, rfl⟩
  · exact exec_outside hexec
  · exact ⟨rfl, rfl, rfl⟩

/-- A step with an input put before the others takes it. -/
theorem step_withInput (s : State) (input : HostInput) (rest : List HostInput) :
    step { s with input := input :: rest } = runInput input { s with input := rest } := step_input rfl

/-- Reset keeps the outside world's fields only, and a command word does not write those. -/
theorem runWordThenReset_eq (w : CmdWord) (s : State) : runWordThenReset w s = .next s.applyReset := by
  obtain ⟨t, ht⟩ := runWord_next w s
  obtain ⟨hinput, hobserved, hmid⟩ := runWord_outside ht
  simp only [runWordThenReset, ht, State.applyReset, hinput, hobserved, hmid]

/-- Settles O13: whatever the command did, reset overwrites it. -/
theorem resetDuringACommandIsReset : Obligations.ResetDuringACommandIsReset := by
  unfold Obligations.ResetDuringACommandIsReset
  intro s w rest
  simp only [step_withInput, runInput, runWordThenReset_eq, and_true]
  exact ⟨_, rfl⟩

/-- What a port answers does not depend on what the host does next. -/
theorem readPort_withInput (s : State) (rest : List HostInput) (p : ReadPort) :
    { s with input := rest }.readPort p = s.readPort p := by
  cases p with
  | status => rfl
  | x d => cases d <;> rfl

/-- Settles O25: the free value picks the state before the command or the one after it, and the read records that state's
answer. -/
theorem readDuringACommandSeesTheWholeOldOrNewState : Obligations.ReadDuringACommandSeesTheWholeOldOrNewState := by
  unfold Obligations.ReadDuringACommandSeesTheWholeOldOrNewState
  intro s w p rest
  obtain ⟨t, ht⟩ := runWord_next w { s with input := rest }
  have hobserved : t.observed = s.observed := (runWord_outside ht).2.1
  simp only [step_withInput, runInput, runWordWithReads, ht]
  refine ⟨t, _, (if Config.midReadSeesNew t.midReads then t else { s with input := rest }).readPort p, rfl, rfl, ?_, ?_⟩
  · split
    · exact .inr rfl
    · exact .inl (readPort_withInput s rest p)
  · simp only [observeDuring, hobserved]

/-! ## States that differ in unloaded registers only -/

namespace State.SameButUnloaded

theorem v (h : s.SameButUnloaded u) (d : Reg) : s.v d = u.v d := by
  cases d with
  | x0 => exact h.v0
  | x1 => exact h.v1

theorem x_of_loaded (h : s.SameButUnloaded u) {d : Reg} (hv : s.v d = true) : s.x d = u.x d := by
  cases d with
  | x0 => exact h.x0 hv
  | x1 => exact h.x1 hv

theorem withInput (h : s.SameButUnloaded u) (rest : List HostInput) :
    { s with input := rest }.SameButUnloaded { u with input := rest } := { h with input := rfl }

/-- A result is put into both states alike: a written register is loaded in both with one content. -/
theorem put (h : s.SameButUnloaded u) (r : Written) : (s.put r).SameButUnloaded (u.put r) := by
  cases r with
  | bits b => exact { h with x0 := fun _ => rfl, v0 := rfl, rkind := rfl }
  | flag f => exact { h with flag := rfl, rkind := rfl }
  | count c => exact { h with cnt := rfl, rkind := rfl }
  | loaded d b =>
    cases d with
    | x0 => exact { h with x0 := fun _ => rfl, v0 := rfl, rkind := rfl }
    | x1 => exact { h with x1 := fun _ => rfl, v1 := rfl, rkind := rfl }

theorem raiseUninit (h : s.SameButUnloaded u) (d : Reg) : (s.raiseUninit d).SameButUnloaded (u.raiseUninit d) :=
  { h with fault := rfl, rkind := rfl, fcause := by simp only [raiseUninit_fcause, h.fault, h.fcause] }

theorem rejectBad (h : s.SameButUnloaded u) : s.rejectBad.SameButUnloaded u.rejectBad := { h with rkind := rfl }

theorem applyReset (h : s.SameButUnloaded u) : s.applyReset.SameButUnloaded u.applyReset where
  x0 _ := rfl
  x1 _ := rfl
  v0 := rfl
  v1 := rfl
  rkind := rfl
  flag := rfl
  cnt := rfl
  fault := rfl
  fcause := rfl
  input := h.input
  observed := h.observed
  midReads := h.midReads

/-- No port shows the content of an unloaded register (10_state.md R33). -/
theorem readPort (h : s.SameButUnloaded u) (p : ReadPort) : s.readPort p = u.readPort p := by
  cases p with
  | status =>
    simp only [State.readPort, statusWord, h.v0, h.v1, h.fcause, h.fault, h.cnt, h.flag, h.rkind]
  | x d =>
    cases hv : s.v d with
    | false => rw [readPort_unloaded hv, readPort_unloaded (h.v d ▸ hv)]
    | true => rw [readPort_loaded hv, readPort_loaded (h.v d ▸ hv), h.x_of_loaded hv]

theorem observe (h : s.SameButUnloaded u) (p : ReadPort) : (s.observe p).SameButUnloaded (u.observe p) :=
  { h with observed := by simp only [observe_observed, h.readPort p, h.observed] }

/-- The free value of a read is drawn by the same counter in both, so both answer from the state before or both from the
one after. -/
theorem observeDuring {before before' after after' : State} (hbefore : before.SameButUnloaded before')
    (hafter : after.SameButUnloaded after') (h : t.SameButUnloaded u) (ports : List ReadPort) :
    (Machine.observeDuring before after ports t).SameButUnloaded (Machine.observeDuring before' after' ports u) := by
  induction ports generalizing t u with
  | nil => exact h
  | cons p ports ih =>
    have hseen : (if Config.midReadSeesNew t.midReads then after else before).readPort p =
        (if Config.midReadSeesNew u.midReads then after' else before').readPort p := by
      rw [h.midReads]
      split
      · exact hafter.readPort p
      · exact hbefore.readPort p
    exact ih { h with
      observed := congrArg₂ List.cons hseen h.observed
      midReads := congrArg (· + 1) h.midReads }

/-- A command reads only registers it requires to be loaded, and raises UNINIT of the same register in both states. -/
theorem exec {i : Instr} (h : s.SameButUnloaded u) (hexec : Machine.exec i s = .next t) :
    ∃ t', Machine.exec i u = .next t' ∧ t.SameButUnloaded t' := by
  have hfirst := firstUnloaded_congr (ds := readsOf i) fun d _ => h.v d
  rcases exec_cases hexec with ⟨hloaded, rfl⟩ | ⟨d, -, hunloaded, -, rfl⟩
  · have hv := firstUnloaded_eq_none.mp hloaded
    have hresult : writtenBy i s.x = writtenBy i u.x := writtenBy_dependsOn_reads i fun d hd => h.x_of_loaded (hv d hd)
    refine ⟨_, exec_of_loaded (firstUnloaded_eq_none.mp (hfirst ▸ hloaded)), ?_⟩
    rw [effectOf_eq_put, hresult]
    exact h.put _
  · refine ⟨_, ?_, h.raiseUninit d⟩
    rw [exec_eq, requireThen_unloaded (hfirst ▸ hunloaded)]

theorem runWord (h : s.SameButUnloaded u) (hrun : Machine.runWord w s = .next t) :
    ∃ t', Machine.runWord w u = .next t' ∧ t.SameButUnloaded t' := by
  rcases runWord_cases hrun with ⟨i, hd, hexec⟩ | ⟨r, hd, rfl⟩
  · rw [runWord_of_command hd]
    exact h.exec hexec
  · exact ⟨_, runWord_of_bad hd u, h.rejectBad⟩

theorem runInput {input : HostInput} (h : s.SameButUnloaded u) (hrun : Machine.runInput input s = .next t) :
    ∃ t', Machine.runInput input u = .next t' ∧ t.SameButUnloaded t' := by
  cases input with
  | command w => exact h.runWord hrun
  | commandBytes bs =>
    obtain ⟨w, hbytes, hw⟩ := runBytes_cases hrun
    simp only [Machine.runInput, runBytes, hbytes]
    exact h.runWord hw
  | commandWithReads w ports =>
    obtain ⟨t, hw, rfl⟩ := runWordWithReads_cases hrun
    obtain ⟨t', hw', h'⟩ := h.runWord hw
    exact ⟨_, by simp only [Machine.runInput, runWordWithReads, hw'], h.observeDuring h' h' ports⟩
  | read p =>
    cases hrun
    exact ⟨_, rfl, h.observe p⟩
  | reset =>
    cases hrun
    exact ⟨_, rfl, h.applyReset⟩
  | resetDuring w =>
    cases (runWordThenReset_eq w s).symm.trans hrun
    exact ⟨_, runWordThenReset_eq w u, h.applyReset⟩

end State.SameButUnloaded

/-- Settles O16: every input does the same to both states, because commands and ports look only at loaded registers. -/
theorem unloadedContentsAreNeverObservable : Obligations.UnloadedContentsAreNeverObservable := by
  unfold Obligations.UnloadedContentsAreNeverObservable
  intro s u t h hstep
  rcases step_cases hstep with ⟨hin, rfl⟩ | ⟨input, rest, hin, hrun⟩
  · exact ⟨u, step_of_no_input (h.input ▸ hin), h⟩
  · rw [step_input (h.input ▸ hin)]
    exact (h.withInput rest).runInput hrun

end Sys2Proof.Machine
end

section
/-! SUPPORT. Runs of command words, one a step, and the order of loads a host keeps (70_reset_and_hazards.md R153). -/

namespace Sys2Proof.Machine

open Sys2Proof.Claim

variable {i : Instr} {s t u : State} {w : CmdWord} {ws : List CmdWord}

/-! ## Command words whatever the host does next -/

theorem State.put_withInput (s : State) (r : Written) (rest : List HostInput) :
    { s with input := rest }.put r = { s.put r with input := rest } := by
  cases r with
  | loaded d b => cases d <;> rfl
  | _ => rfl

theorem exec_withInput (h : exec i s = .next t) (rest : List HostInput) :
    exec i { s with input := rest } = .next { t with input := rest } := by
  have hx : { s with input := rest }.x = s.x := funext fun d => by cases d <;> rfl
  rcases exec_congr (i := i) (fun d _ => s.v_withInput rest d) (by rw [hx]) with ⟨hrest, hs⟩ | ⟨d, hrest, hs⟩
  · cases hs.symm.trans h
    rw [hrest, State.put_withInput]
  · cases hs.symm.trans h
    exact hrest

theorem runWord_withInput (h : runWord w s = .next t) (rest : List HostInput) :
    runWord w { s with input := rest } = .next { t with input := rest } := by
  rcases runWord_cases h with ⟨i, hd, hexec⟩ | ⟨r, hd, rfl⟩
  · rw [runWord_of_command hd, exec_withInput hexec]
  · rw [runWord_of_bad hd]
    rfl

/-! ## Runs -/

/-- Command words take the block from one state to another, one after the other. -/
inductive Runs : State → List CmdWord → State → Prop
  | nil (s : State) : Runs s [] s
  | cons {s t u : State} {w : CmdWord} {ws : List CmdWord} (head : runWord w s = .next t) (tail : Runs t ws u) :
    Runs s (w :: ws) u

theorem Runs.append {vs : List CmdWord} (h : Runs s vs t) (h' : Runs t ws u) : Runs s (vs ++ ws) u := by
  induction h with
  | nil s => exact h'
  | cons head _ ih => exact .cons head (ih h')

theorem Runs.of_command (hwf : i.wf = true) (h : exec i s = .next t) : Runs s [encode i] t :=
  .cons ((runWord_of_command (decode_encode hwf) s).trans h) (.nil t)

/-- The machine runs the words in as many steps, whatever the host does after them. -/
theorem Runs.core_run (h : Runs s ws t) (rest : List HostInput) :
    core.run ws.length { s with input := ws.map .command ++ rest } = .next { t with input := rest } := by
  induction h with
  | nil s => exact core_run_zero _
  | @cons s t u w ws head _ ih =>
    have hstep := (step_withInput s (.command w) (ws.map .command ++ rest)).trans (runWord_withInput head _)
    exact (core_run_succ hstep).trans ih

/-- Commands as the host issues them. -/
theorem Runs.core_run_issue {is : List Instr} (h : Runs s (is.map encode) t) (rest : List HostInput) :
    core.run is.length { s with input := issue is ++ rest } = .next { t with input := rest } := by
  have hrun := h.core_run rest
  rwa [List.length_map, List.map_map] at hrun

/-! ## The order of loads -/

/-- A register a command writes is one it loads or one it has read (10_state.md R26). -/
theorem loaded_or_read_of_writesOf {d : Reg} (h : writesOf i = some d) : loadOf i = some d ∨ d ∈ readsOf i := by
  cases i <;> simp_all [writesOf, loadOf, readsOf, bothRegisters, accumulatorOnly]

theorem writesOf_of_loadOf {d : Reg} (h : loadOf i = some d) : writesOf i = some d := by
  cases i <;> simp_all [writesOf, loadOf]

/-- After a command whose registers are loaded, those loaded are those before and the one it loads. -/
theorem v_put_writtenBy (h : ∀ d ∈ readsOf i, s.v d = true) (d : Reg) :
    (s.put (writtenBy i s.x)).v d = (s.v d || decide (loadOf i = some d)) := by
  by_cases hw : writesOf i = some d
  · have hv : (s.put (writtenBy i s.x)).v d = true := s.put_v_register (by simpa using hw)
    rcases loaded_or_read_of_writesOf hw with hload | hread
    · simp [hv, hload]
    · simp [hv, h d hread]
  · have hload : loadOf i ≠ some d := fun hload => hw (writesOf_of_loadOf hload)
    rw [(s.put_register_other _ (by simpa using hw)).2]
    simp [hload]

theorem isLoaded_eq_v (s : State) (d : Reg) : isLoaded s.v0 s.v1 d = s.v d := by cases d <;> rfl

/-- Every command of a list that keeps the load order completes. -/
theorem runs_of_keepsLoadOrder {is : List Instr} (hwf : ∀ i ∈ is, i.wf = true)
    (horder : keepsLoadOrder s.v0 s.v1 is = true) :
    ∃ t, Runs s (is.map encode) t ∧ t.fault = s.fault ∧ t.fcause = s.fcause := by
  induction is generalizing s with
  | nil => exact ⟨s, .nil s, rfl, rfl⟩
  | cons i is ih =>
    rw [List.forall_mem_cons] at hwf
    obtain ⟨hi, his⟩ := hwf
    obtain ⟨hloaded, hrest⟩ : (∀ d ∈ readsOf i, s.v d = true) ∧
        keepsLoadOrder (s.v0 || decide (loadOf i = some .x0)) (s.v1 || decide (loadOf i = some .x1)) is = true := by
      simpa [keepsLoadOrder, isLoaded_eq_v] using horder
    have h0 := v_put_writtenBy hloaded .x0
    have h1 := v_put_writtenBy hloaded .x1
    simp only [State.v_x0, State.v_x1] at h0 h1
    rw [← h0, ← h1] at hrest
    obtain ⟨t, hruns, hfault, hcause⟩ := ih his hrest
    exact ⟨t, (Runs.of_command hi (exec_of_loaded hloaded)).append hruns, hfault.trans (s.put_fault _),
      hcause.trans (s.put_fcause _)⟩

/-- Settles O58: no command of the list finds a register unloaded, so each completes and leaves FAULT and FCAUSE. -/
theorem keepingTheLoadOrderNeverFaults : Obligations.KeepingTheLoadOrderNeverFaults := by
  unfold Obligations.KeepingTheLoadOrderNeverFaults
  intro s is rest hwf horder
  obtain ⟨t, hruns, hfault, hcause⟩ := runs_of_keepsLoadOrder hwf horder
  exact ⟨_, hruns.core_run_issue rest, rfl, hfault, hcause⟩

end Sys2Proof.Machine
end

section
/-! SUPPORT. The pattern load and the corner cases of `fromBitPattern` (40_construction.md R75, R77). -/

namespace Sys2Proof.Machine

open Sys2Proof.Claim

/-! ## The pattern load -/

theorem fromBitPattern_countExact (text : List CharCode) : (fromBitPattern text).countExact := mk96_countExact _

theorem fromBitPattern_nil : fromBitPattern [] = content 0#64 0#32 := by decide

/-- One more character on the right is one more LDPC (40_construction.md R71, R74). -/
theorem fromBitPattern_concat (text : List CharCode) (ch : CharCode) :
    fromBitPattern (text ++ [ch]) = mk96 (shiftInChar (fromBitPattern text).val ch) := by
  refine BitString.ext_of_val (fromBitPattern_countExact _) (mk96_countExact _) (BitVec.eq_of_getLsbD_eq fun i hi => ?_)
  rw [mk96_val, getLsbD_shiftInChar _ _ _ hi, getLsbD_fromBitPattern, getLsbD_fromBitPattern, List.reverse_concat]
  cases i with
  | zero => simp
  | succ i => simp [hi, show i < 96 by omega]

/-- Loading a register twice is loading it once. -/
theorem State.putLoaded_putLoaded (s : State) (d : Reg) (b b' : BitString) :
    (s.putLoaded d b).putLoaded d b' = s.putLoaded d b' := by cases d <;> rfl

/-- A pattern load from any state, character by character from the left. -/
theorem runs_ldp (s : State) (d : Reg) (text : List CharCode) :
    Runs s ((ldp d text).map encode) (s.putLoaded d (fromBitPattern text)) := by
  induction text using List.reverseRecOn with
  | nil => exact .of_command rfl (fromBitPattern_nil ▸ exec_ldpz d s)
  | append_singleton text ch ih =>
    have hsplit : ldp d (text ++ [ch]) = ldp d text ++ [.ldpc d ch] := by simp [ldp, ldpcAll]
    rw [hsplit, List.map_append, fromBitPattern_concat]
    refine ih.append (.of_command rfl ?_)
    rw [exec_of_loaded (by simp [readsOf]), writtenBy, State.put, State.putLoaded_putLoaded]
    simp

/-- Settles O30: the run ends with the register loaded, which is its write and RKIND LOADED. -/
theorem patternLoadEqualsFromBitPattern : Obligations.PatternLoadEqualsFromBitPattern := by
  unfold Obligations.PatternLoadEqualsFromBitPattern
  intro s d text rest
  have hrun := (runs_ldp s d text).core_run_issue rest
  rw [ldp, ldpcAll, List.length_cons, List.length_map] at hrun
  exact ⟨_, hrun, rfl⟩

/-! ## The corner cases -/

/-- A pattern is its bits. -/
theorem fromBitPattern_ext {text text' : List CharCode}
    (h : ∀ i < 96, (fromBitPattern text).val.getLsbD i = (fromBitPattern text').val.getLsbD i) :
    fromBitPattern text = fromBitPattern text' :=
  BitString.ext_of_val (fromBitPattern_countExact _) (fromBitPattern_countExact _) (BitVec.eq_of_getLsbD_eq h)

/-- Of each character only whether it is `1` matters. -/
theorem fromBitPattern_congr {text text' : List CharCode} (h : text.map isOneChar = text'.map isOneChar) :
    fromBitPattern text = fromBitPattern text' := by
  rw [fromBitPattern, fromBitPattern, List.map_reverse, List.map_reverse, h]

/-- Only the last 96 characters have a bit. -/
theorem fromBitPattern_append (front : List CharCode) {back : List CharCode} (h : back.length = 96) :
    fromBitPattern (front ++ back) = fromBitPattern back := by
  refine fromBitPattern_ext fun i hi => ?_
  rw [getLsbD_fromBitPattern, getLsbD_fromBitPattern, List.reverse_append, List.getElem?_append_left (by simpa [h])]

theorem getLsbD_fromBitPattern_of_length_le {text : List CharCode} {i : Nat} (h : text.length ≤ i) :
    (fromBitPattern text).val.getLsbD i = false := by
  rw [getLsbD_fromBitPattern, List.getElem?_eq_none (by simpa using h)]
  simp

theorem isOneChar_of_ne {ch : CharCode} (h : ch ≠ Config.oneChar) : isOneChar ch = false := decide_eq_false h

theorem fromBitPattern_of_no_one {text : List CharCode} (h : ∀ c ∈ text, c ≠ Config.oneChar) :
    fromBitPattern text = fromBitPattern [] := by
  refine fromBitPattern_ext fun i hi => ?_
  have hbit : ∀ ch, text.reverse[i]? = some ch → isOneChar ch = false := fun ch hch =>
    isOneChar_of_ne (h ch (List.mem_reverse.mp (List.mem_of_getElem? hch)))
  rw [getLsbD_fromBitPattern, getLsbD_fromBitPattern_of_length_le (Nat.zero_le i)]
  cases hch : text.reverse[i]? with
  | none => simp
  | some ch => simp [hbit ch hch]

/-- Settles O31: only the last 96 characters have a bit, there is none past the text, and only `1` sets one. -/
theorem patternCornerCases : Obligations.PatternCornerCases := by
  unfold Obligations.PatternCornerCases
  refine ⟨fun front back h => fromBitPattern_append front h, fun text i h => getLsbD_fromBitPattern_of_length_le h,
    fun front back a b ha hb => fromBitPattern_congr ?_, fun text h => ?_⟩
  · simp [isOneChar_of_ne ha, isOneChar_of_ne hb]
  · rw [fromBitPattern_of_no_one h, fromBitPattern_nil, content_zero]

end Sys2Proof.Machine
end

section
/-! SUPPORT. The STATUS word field by field (10_state.md R27). -/

namespace Sys2Proof.Machine

/-- A field of STATUS is the value all of whose bits stand at the field's place. -/
theorem extractLsb'_statusWord {s : State} {start len : Nat} {x : BitVec len}
    (h : ∀ i < len, s.statusWord.getLsbD (start + i) = x.getLsbD i) : s.statusWord.extractLsb' start len = x := by
  refine BitVec.eq_of_getLsbD_eq fun i hi => ?_
  rw [BitVec.getLsbD_extractLsb', h i hi]
  simp [hi]

theorem statusWord_rkind (s : State) : s.statusWord.extractLsb' 0 3 = s.rkind.code :=
  extractLsb'_statusWord fun i hi => by
    rw [Nat.zero_add, State.getLsbD_statusWord, if_pos hi]

theorem statusWord_cnt (s : State) : s.statusWord.extractLsb' 4 7 = s.cnt :=
  extractLsb'_statusWord fun i hi => by
    rw [State.getLsbD_statusWord, if_neg (by omega), if_neg (by omega), if_pos (by omega), Nat.add_sub_cancel_left]

theorem statusWord_fcause (s : State) : s.statusWord.extractLsb' 12 2 = s.fcause.code :=
  extractLsb'_statusWord fun i hi => by
    rw [State.getLsbD_statusWord, if_neg (by omega), if_neg (by omega), if_neg (by omega), if_neg (by omega),
      if_pos (by omega), Nat.add_sub_cancel_left]

theorem statusWord_reserved (s : State) : s.statusWord.extractLsb' 16 16 = 0#16 :=
  extractLsb'_statusWord fun i hi => by
    rw [State.getLsbD_statusWord]
    iterate 7 rw [if_neg (by omega)]
    simp

/-- Settles O23: the fields of several bits are their codes, and each other bit is read off the word. -/
theorem statusWordHasTheSpecLayout : Obligations.StatusWordHasTheSpecLayout := by
  unfold Obligations.StatusWordHasTheSpecLayout
  intro s
  rw [statusWord_rkind, statusWord_fcause]
  refine ⟨?_, s.getLsbD_statusWord 3, statusWord_cnt s, s.getLsbD_statusWord 11, ?_, s.getLsbD_statusWord 14,
    s.getLsbD_statusWord 15, statusWord_reserved s⟩
  · cases s.rkind <;> rfl
  · cases s.fcause <;> rfl

end Sys2Proof.Machine
end

section
/-! SUPPORT. The population count of combined words (43_popcount.md R103). -/

namespace Sys2Proof.Machine

open Sys2Proof.Claim

/-! ## Counts of bit combinations -/

section

variable {n : Nat} (x y : BitVec n)

/-- What holds of the bits one by one holds of their sum. -/
theorem popcount_not_add : popcount (~~~x) + popcount x = n := by
  simp only [popcount_eq_bitSum, bitSum, ← Finset.sum_add_distrib]
  have hbit : ∀ i ∈ Finset.range n, ((~~~x).getLsbD i).toNat + (x.getLsbD i).toNat = 1 := fun i hi => by
    have hlt := Finset.mem_range.mp hi
    rw [BitVec.getLsbD_not, decide_eq_true hlt, Bool.true_and]
    cases x.getLsbD i <;> rfl
  rw [Finset.sum_congr rfl hbit, Finset.sum_const, Finset.card_range, smul_eq_mul, Nat.mul_one]

theorem popcount_and_add_or : popcount (x &&& y) + popcount (x ||| y) = popcount x + popcount y := by
  simp only [popcount_eq_bitSum, bitSum, ← Finset.sum_add_distrib]
  refine Finset.sum_congr rfl fun i _ => ?_
  cases hx : x.getLsbD i <;> cases hy : y.getLsbD i <;> simp [hx, hy]

theorem popcount_xor_add_and : popcount (x ^^^ y) + 2 * popcount (x &&& y) = popcount x + popcount y := by
  simp only [popcount_eq_bitSum, bitSum, Finset.mul_sum, ← Finset.sum_add_distrib]
  refine Finset.sum_congr rfl fun i _ => ?_
  cases hx : x.getLsbD i <;> cases hy : y.getLsbD i <;> simp [hx, hy]

variable {x}

theorem popcount_eq_zero_iff : popcount x = 0 ↔ x = 0#n := by
  constructor
  · intro h
    refine BitVec.eq_of_getLsbD_eq fun i hi => ?_
    rw [popcount_eq_bitSum, bitSum, Finset.sum_eq_zero_iff] at h
    simpa using h i (Finset.mem_range.mpr hi)
  · rintro rfl
    rw [popcount_eq_bitSum, bitSum_zero]

/-- All bits are set exactly when the complement has none. -/
theorem popcount_eq_width_iff : popcount x = n ↔ x = BitVec.allOnes n := by
  have hnot := popcount_not_add x
  rw [← BitVec.not_zero, ← BitVec.not_eq_comm, ← popcount_eq_zero_iff]
  omega

variable {y}

/-- A word whose bits are all set in another counts no more. -/
theorem bitSum_le_of_bits (h : ∀ i < n, x.getLsbD i = true → y.getLsbD i = true) : bitSum x ≤ bitSum y :=
  Finset.sum_le_sum fun i hi => Bool.toNat_le_toNat (h i (Finset.mem_range.mp hi))

/-- It counts as many only when it has the same bits. -/
theorem bitSum_eq_iff_of_bits (h : ∀ i < n, x.getLsbD i = true → y.getLsbD i = true) :
    bitSum x = bitSum y ↔ ∀ i < n, x.getLsbD i = y.getLsbD i := by
  have hle : ∀ i ∈ Finset.range n, (x.getLsbD i).toNat ≤ (y.getLsbD i).toNat := fun i hi =>
    Bool.toNat_le_toNat (h i (Finset.mem_range.mp hi))
  have hinj : Function.Injective Bool.toNat := by decide
  rw [bitSum, bitSum, Finset.sum_eq_sum_iff_of_le hle]
  simp only [Finset.mem_range, hinj.eq_iff]

end

/-! ## Counts of register contents -/

variable {a : BitString}

/-- The count mk writes, as a number. -/
theorem toNat_pcnt_mk (h : Head) (t : Tail) : (mk h t).pcnt.toNat = popcount h + popcount t := mk_countExact h t

/-- The count is 0 when neither word has a bit. -/
theorem pcnt_eq_zero_iff (ha : a.countExact) : a.pcnt = 0#7 ↔ a.head = 0#64 ∧ a.tail = 0#32 := by
  rw [← BitVec.toNat_inj, ha, ← popcount_eq_zero_iff, ← popcount_eq_zero_iff]
  exact Nat.add_eq_zero_iff

/-- The count is 96 when both words have all their bits. -/
theorem pcnt_eq_96_iff (ha : a.countExact) :
    a.pcnt = 96#7 ↔ a.head = BitVec.allOnes 64 ∧ a.tail = BitVec.allOnes 32 := by
  have hhead := popcount_le a.head
  have htail := popcount_le a.tail
  rw [← BitVec.toNat_inj, ha, ← popcount_eq_width_iff, ← popcount_eq_width_iff, BitVec.toNat_ofNat]
  omega

/-- NOT counts the bits that were not set (41_bitwise.md R83). -/
theorem pcnt_mk_not (ha : a.countExact) : (mk (~~~a.head) (~~~a.tail)).pcnt.toNat = 96 - a.pcnt.toNat := by
  have hhead := popcount_not_add a.head
  have htail := popcount_not_add a.tail
  rw [toNat_pcnt_mk, ha]
  omega

/-- Settles O44: each law of the counts holds of each word's count, bit by bit. -/
theorem popcountLaws : Obligations.PopcountLaws := by
  unfold Obligations.PopcountLaws
  refine ⟨fun h t => ?_, fun a ha => pcnt_mk_not ha, fun a b ha hb => ?_,
    fun a ha => ⟨pcnt_eq_zero_iff ha, pcnt_eq_96_iff ha⟩⟩
  · rw [← popcount_eq_bitSum, ← popcount_eq_bitSum]
    exact toNat_pcnt_mk h t
  · have hhead := popcount_and_add_or a.head b.head
    have htail := popcount_and_add_or a.tail b.tail
    have hhead' := popcount_xor_add_and a.head b.head
    have htail' := popcount_xor_add_and a.tail b.tail
    rw [toNat_pcnt_mk, toNat_pcnt_mk, toNat_pcnt_mk, ha, hb]
    omega

end Sys2Proof.Machine
end

section
/-! SUPPORT. NOT (41_bitwise.md R83) and the laws of the ALU, bit by bit (R84). -/

namespace Sys2Proof.Machine

open Sys2Proof.Claim

variable {i j : Instr} {s : State} {a b : BitString} {f g : Bool → Bool → Bool}

/-! ## NOT -/

theorem exec_not (h0 : s.v0 = true) :
    exec .not s = .next { s with x0 := content (~~~s.x0.head) (~~~s.x0.tail), rkind := .bits } := by
  have hloaded : ∀ d ∈ readsOf .not, s.v d = true := by simp [readsOf, accumulatorOnly, h0]
  rw [exec_eq, requireThen_loaded hloaded, effectOf, State.putBits_eq, writeX_x0_of_loaded h0, mk_eq_content,
    State.setRKind]

/-- Settles O35: the complement's count is that of the bits not set, and the complement of the complement is the operand. -/
theorem notComplementsBothWords : Obligations.NotComplementsBothWords := by
  unfold Obligations.NotComplementsBothWords
  refine ⟨⟨by decide, by decide⟩, fun s h0 => exec_not h0, raisesUninit0_of_readsOf rfl, fun s h0 hhead htail => ?_,
    fun s h0 hexact => ⟨_, _, exec_not h0, exec_not h0, ?_, ?_⟩⟩
  · refine ⟨_, exec_not h0, ?_⟩
    rw [hhead, htail, BitVec.not_zero, BitVec.not_zero, content_allOnes]
  · simp only [content, BitVec.not_not]
    exact content_of_countExact hexact
  · rw [← mk_eq_content, pcnt_mk_not hexact]

/-! ## Bit by bit -/

theorem content_countExact (h : Head) (t : Tail) : (content h t).countExact := mk_eq_content h t ▸ mk_countExact h t

theorem content_val (h : Head) (t : Tail) : (content h t).val = h ++ t := rfl

/-- A command leaves in X[0], from loaded operands, the bits that a function gives of the operands' bits one by one. -/
def ComputesBits (i : Instr) (f : Bool → Bool → Bool) : Prop :=
  ∀ (s : State) (a b : BitString), ∃ t, exec i (operands s a b) = .next t ∧ t.x0.countExact
    ∧ ∀ k < 96, t.x0.val.getLsbD k = f (a.val.getLsbD k) (b.val.getLsbD k)

/-- A command of the same function on both lanes computes that function of the 96-bit values. -/
theorem computesBits_of_writesBits {head : Head → Head → Head} {tail : Tail → Tail → Tail}
    (hwrites : WritesBits i head tail)
    (hbits : ∀ (a b : BitString), ∀ k < 96,
      (head a.head b.head ++ tail a.tail b.tail : Value).getLsbD k = f (a.val.getLsbD k) (b.val.getLsbD k)) :
    ComputesBits i f :=
  fun s a b => ⟨_, hwrites (operands s a b) rfl rfl, content_countExact _ _, hbits a b⟩

theorem computesBits_and : ComputesBits .and (· && ·) :=
  computesBits_of_writesBits writesBits_and fun a b k _ => by
    rw [← BitVec.and_append, BitVec.getLsbD_and]; rfl

theorem computesBits_or : ComputesBits .or (· || ·) :=
  computesBits_of_writesBits writesBits_or fun a b k _ => by
    rw [← BitVec.or_append, BitVec.getLsbD_or]; rfl

theorem computesBits_xor : ComputesBits .xor (· ^^ ·) :=
  computesBits_of_writesBits writesBits_xor fun a b k _ => by
    rw [← BitVec.xor_append, BitVec.getLsbD_xor]; rfl

theorem computesBits_not : ComputesBits .not fun x _ => !x := fun s a b => by
  refine ⟨_, exec_not (s := operands s a b) rfl, content_countExact _ _, fun k hk => ?_⟩
  rw [content_val, ← BitVec.not_append, BitVec.getLsbD_not, decide_eq_true hk, Bool.true_and]
  rfl

/-- A commutative function of bits makes a commutative command. -/
theorem ComputesBits.comm (h : ComputesBits i f) (hf : ∀ x y, f x y = f y x) (s : State) (a b : BitString) :
    ∃ t u, exec i (operands s a b) = .next t ∧ exec i (operands s b a) = .next u ∧ t.x0 = u.x0 := by
  obtain ⟨t, ht, hexact, hbits⟩ := h s a b
  obtain ⟨u, hu, hexact', hbits'⟩ := h s b a
  refine ⟨t, u, ht, hu, BitString.ext_of_val hexact hexact' (BitVec.eq_of_getLsbD_eq fun k hk => ?_)⟩
  rw [hbits k hk, hbits' k hk, hf]

/-- An associative function of bits makes an associative command. -/
theorem ComputesBits.assoc (h : ComputesBits i f) (hf : ∀ x y z, f (f x y) z = f x (f y z)) (s : State)
    (a b c : BitString) :
    ∃ t t' u u', exec i (operands s a b) = .next t ∧ exec i (operands s t.x0 c) = .next t'
      ∧ exec i (operands s b c) = .next u ∧ exec i (operands s a u.x0) = .next u' ∧ t'.x0 = u'.x0 := by
  obtain ⟨t, ht, -, hbits⟩ := h s a b
  obtain ⟨t', ht', hexact, hbits'⟩ := h s t.x0 c
  obtain ⟨u, hu, -, hbitsu⟩ := h s b c
  obtain ⟨u', hu', hexact', hbitsu'⟩ := h s a u.x0
  refine ⟨t, t', u, u', ht, ht', hu, hu', BitString.ext_of_val hexact hexact' (BitVec.eq_of_getLsbD_eq fun k hk => ?_)⟩
  rw [hbits' k hk, hbits k hk, hf, hbitsu' k hk, hbitsu k hk]

/-- Bit k of the result depends on bit k of the operands only. -/
theorem ComputesBits.bit_congr (h : ComputesBits i f) (s : State) {a b a' b' : BitString} {k : Nat}
    (ha : a.val.getLsbD k = a'.val.getLsbD k) (hb : b.val.getLsbD k = b'.val.getLsbD k) :
    ∃ t u, exec i (operands s a b) = .next t ∧ exec i (operands s a' b') = .next u
      ∧ t.x0.val.getLsbD k = u.x0.val.getLsbD k := by
  obtain ⟨t, ht, -, hbits⟩ := h s a b
  obtain ⟨u, hu, -, hbits'⟩ := h s a' b'
  refine ⟨t, u, ht, hu, ?_⟩
  by_cases hk : k < 96
  · rw [hbits k hk, hbits' k hk, ha, hb]
  · rw [BitVec.getLsbD_of_ge _ _ (by omega), BitVec.getLsbD_of_ge _ _ (by omega)]

/-- Settles O36: De Morgan and NOT twice on the words, and the other laws from those of the function of bits. -/
theorem bitwiseLawsHoldOfTheCommands : Obligations.BitwiseLawsHoldOfTheCommands := by
  unfold Obligations.BitwiseLawsHoldOfTheCommands
  refine fun s a b => ⟨⟨_, _, writesBits_and (operands s a b) rfl rfl, exec_not rfl, ?_⟩,
    ⟨_, _, writesBits_or (operands s a b) rfl rfl, exec_not rfl, ?_⟩, ?_,
    ⟨_, _, exec_not (s := operands s a b) rfl, exec_not rfl, ?_⟩, ?_, ?_, ?_⟩
  · simp only [content, operands, BitVec.not_and]
  · simp only [content, operands, BitVec.not_or]
  · apply leavesX0_of_writesBits writesBits_xor
    rw [BitVec.xor_self, BitVec.xor_self, content_zero]
  · rw [content_val]
    simp only [content, operands, BitVec.not_not]
    rfl
  · simp only [List.forall_mem_cons]
    exact ⟨computesBits_and.comm Bool.and_comm s a b, computesBits_or.comm Bool.or_comm s a b,
      computesBits_xor.comm Bool.xor_comm s a b, List.forall_mem_nil _⟩
  · simp only [List.forall_mem_cons]
    exact ⟨computesBits_and.assoc Bool.and_assoc s a b, computesBits_or.assoc Bool.or_assoc s a b,
      computesBits_xor.assoc Bool.xor_assoc s a b, List.forall_mem_nil _⟩
  · simp only [List.forall_mem_cons]
    exact ⟨fun _ _ _ ha hb => computesBits_and.bit_congr s ha hb, fun _ _ _ ha hb => computesBits_or.bit_congr s ha hb,
      fun _ _ _ ha hb => computesBits_xor.bit_congr s ha hb, fun _ _ _ ha hb => computesBits_not.bit_congr s ha hb,
      List.forall_mem_nil _⟩

end Sys2Proof.Machine
end

section
/-! SUPPORT. The two-word datapaths and the laws of the shifter (42_shift.md R92, R93, R95, 30_encoding.md R68). -/

namespace Sys2Proof.Machine

open Sys2Proof.Claim

variable {s : State} {n : Nat}

/-! ## The bits of a shifted value -/

theorem getLsbD_shl96 (v : Value) (n i : Nat) :
    (shl96 v n).getLsbD i = (decide (i < 96) && !decide (i < n) && v.getLsbD (i - n)) := by
  rw [← shlN_eq_shl96, shlN_eq, BitVec.getLsbD_shiftLeft]

theorem getLsbD_shr96 (v : Value) (n i : Nat) : (shr96 v n).getLsbD i = v.getLsbD (n + i) := by
  rw [← shrN_eq_shr96, shrN_eq, BitVec.getLsbD_ushiftRight]

theorem getLsbD_shlN {m : Nat} (v : BitVec m) (n i : Nat) :
    (shlN v n).getLsbD i = (decide (i < m) && !decide (i < n) && v.getLsbD (i - n)) := by
  rw [shlN_eq, BitVec.getLsbD_shiftLeft]

theorem getLsbD_shrN {m : Nat} (v : BitVec m) (n i : Nat) : (shrN v n).getLsbD i = v.getLsbD (n + i) := by
  rw [shrN_eq, BitVec.getLsbD_ushiftRight]

/-! ## The two-word datapaths -/

/-- The words of the left shift, branch by branch (42_shift.md R92). -/
theorem shl96_eq_shlWords (h : Head) (t : Tail) (n : Nat) :
    shl96 (h ++ t) n = (shlWords h t n).1 ++ (shlWords h t n).2 := by
  unfold shlWords
  split_ifs with h96 h64 h32
  · exact shl96_of_ge _ h96
  all_goals
    refine BitVec.eq_of_getLsbD_eq fun i hi => ?_
    simp only [getLsbD_shl96, getLsbD_words, getLsbD_shlN, getLsbD_shrN, BitVec.getLsbD_or, BitVec.getLsbD_setWidth,
      BitVec.getLsbD_zero]
    grind

theorem shr96_eq_shrWords (h : Head) (t : Tail) (n : Nat) :
    shr96 (h ++ t) n = (shrWords h t n).1 ++ (shrWords h t n).2 := by
  unfold shrWords
  split_ifs with h96 h64 h32
  · exact shr96_of_ge _ h96
  all_goals
    refine BitVec.eq_of_getLsbD_eq fun i hi => ?_
    simp only [getLsbD_shr96, getLsbD_words, getLsbD_shlN, getLsbD_shrN, BitVec.getLsbD_or, BitVec.getLsbD_setWidth,
      BitVec.getLsbD_zero]
    grind

/-- Settles O39: the two words are those of the product modulo 2^96. -/
theorem twoWordLeftShiftRefinesShl : Obligations.TwoWordLeftShiftRefinesShl := by
  unfold Obligations.TwoWordLeftShiftRefinesShl
  exact fun s n h0 => leavesX0_shl h0 (shl96_eq_shlWords _ _ _)

/-- Settles O40: the two words are those of the quotient by 2^N. -/
theorem twoWordRightShiftRefinesShr : Obligations.TwoWordRightShiftRefinesShr := by
  unfold Obligations.TwoWordRightShiftRefinesShr
  exact fun s n h0 => leavesX0_shr h0 (shr96_eq_shrWords _ _ _)

/-! ## Saturated amounts (30_encoding.md R68) -/

theorem saturateShift_of_ge (hn : 2 ^ 32 ≤ n) : saturateShift n = 4294967295 := Nat.min_eq_right (by omega)

theorem saturateShift_of_lt (hn : n < 2 ^ 32) : saturateShift n = n := Nat.min_eq_left (by omega)

theorem shl96_saturateShift (v : Value) (n : Nat) : shl96 v (saturateShift n) = shl96 v n := by
  by_cases hn : n < 2 ^ 32
  · rw [saturateShift_of_lt hn]
  · rw [saturateShift_of_ge (by omega), shl96_of_ge v (by omega), shl96_of_ge v (by omega)]

theorem shr96_saturateShift (v : Value) (n : Nat) : shr96 v (saturateShift n) = shr96 v n := by
  by_cases hn : n < 2 ^ 32
  · rw [saturateShift_of_lt hn]
  · rw [saturateShift_of_ge (by omega), shr96_of_ge v (by omega), shr96_of_ge v (by omega)]

theorem exec_shl_saturateShift (n : Nat) (s : State) : exec (.shl (saturateShift n)) s = exec (.shl n) s := by
  simp only [exec_eq, readsOf, effectOf, shlN_eq_shl96, shl96_saturateShift]

theorem exec_shr_saturateShift (n : Nat) (s : State) : exec (.shr (saturateShift n)) s = exec (.shr n) s := by
  simp only [exec_eq, readsOf, effectOf, shrN_eq_shr96, shr96_saturateShift]

/-- Settles O42: an amount and its saturation shift alike, both being past the width where they differ. -/
theorem saturatedShiftLosesNothing : Obligations.SaturatedShiftLosesNothing := by
  unfold Obligations.SaturatedShiftLosesNothing
  intro s n hn
  have hsat := saturateShift_of_ge hn
  rw [← hsat]
  exact ⟨rfl, (exec_shl_saturateShift n s).symm, (exec_shr_saturateShift n s).symm⟩

/-! ## Two shifts in a row -/

theorem shl96_shl96 (v : Value) (m n : Nat) : shl96 (shl96 v m) n = shl96 v (m + n) := by
  simp only [← shlN_eq_shl96, shlN_eq, BitVec.shiftLeft_add]

theorem shr96_shr96 (v : Value) (m n : Nat) : shr96 (shr96 v m) n = shr96 v (m + n) := by
  simp only [← shrN_eq_shr96, shrN_eq, BitVec.shiftRight_add]

/-- A shift right and back clears the low bits (42_shift.md R95). -/
theorem getLsbD_shl96_shr96 (v : Value) {i : Nat} (hi : i < 96) :
    (shl96 (shr96 v n) n).getLsbD i = (decide (n ≤ i) && v.getLsbD i) := by
  rw [getLsbD_shl96, getLsbD_shr96]
  by_cases h : n ≤ i
  · simp [hi, h, Nat.not_lt.mpr h]
  · simp [h, Nat.not_le.mp h]

/-- A shift left and back clears the high bits (42_shift.md R95). -/
theorem getLsbD_shr96_shl96 (v : Value) (i : Nat) :
    (shr96 (shl96 v n) n).getLsbD i = (decide (i + n < 96) && v.getLsbD i) := by
  rw [getLsbD_shr96, getLsbD_shl96, Nat.add_sub_cancel_left, Nat.add_comm i n]
  simp

/-! ## The count of a shifted value -/

/-- The bits of a value are the n lowest and those that a right shift keeps. -/
theorem bitSum_shr96_add (v : Value) (n : Nat) :
    bitSum (shr96 v n) + ∑ i ∈ Finset.range n, (v.getLsbD i).toNat = bitSum v := by
  have hbeyond : ∑ i ∈ Finset.range n, (v.getLsbD (96 + i)).toNat = 0 :=
    Finset.sum_eq_zero fun i _ => by rw [BitVec.getLsbD_of_ge v _ (by omega), Bool.toNat_false]
  calc bitSum (shr96 v n) + ∑ i ∈ Finset.range n, (v.getLsbD i).toNat
    _ = ∑ i ∈ Finset.range (n + 96), (v.getLsbD i).toNat := by
      rw [Finset.sum_range_add, Nat.add_comm]
      simp only [bitSum, getLsbD_shr96]
    _ = bitSum v := by rw [Nat.add_comm n, Finset.sum_range_add, hbeyond, Nat.add_zero, bitSum]

/-- A left shift puts n zeros below the bits it keeps. -/
theorem bitSum_shl96 (v : Value) (n : Nat) : bitSum (shl96 v n) = bitSum (shr96 (shl96 v n) n) := by
  have hvacated : ∑ i ∈ Finset.range n, ((shl96 v n).getLsbD i).toNat = 0 :=
    Finset.sum_eq_zero fun i hi => by rw [getLsbD_shl96_of_lt v (Finset.mem_range.mp hi), Bool.toNat_false]
  rw [← bitSum_shr96_add (shl96 v n) n, hvacated, Nat.add_zero]

/-- A right shift loses no count exactly when the n lowest bits are 0. -/
theorem bitSum_shr96_eq_iff (v : Value) (n : Nat) :
    bitSum (shr96 v n) = bitSum v ↔ ∀ i < 96, i < n → v.getLsbD i = false := by
  rw [← bitSum_shr96_add v n, left_eq_add, Finset.sum_eq_zero_iff]
  simp only [Finset.mem_range, Bool.toNat_eq_zero]
  refine ⟨fun h i _ hi => h i hi, fun h i hi => ?_⟩
  by_cases h96 : i < 96
  · exact h i h96 hi
  · exact BitVec.getLsbD_of_ge v i (by omega)

/-- A left shift keeps the count of the bits that a shift back brings back, and those are bits of the value. -/
theorem bits_of_shr96_shl96 (v : Value) (n : Nat) :
    ∀ i < 96, (shr96 (shl96 v n) n).getLsbD i = true → v.getLsbD i = true := fun i _ h => by
  rw [getLsbD_shr96_shl96, Bool.and_eq_true] at h
  exact h.2

theorem bitSum_shl96_le (v : Value) (n : Nat) : bitSum (shl96 v n) ≤ bitSum v := by
  rw [bitSum_shl96]
  exact bitSum_le_of_bits (bits_of_shr96_shl96 v n)

theorem bitSum_shr96_le (v : Value) (n : Nat) : bitSum (shr96 v n) ≤ bitSum v := by
  rw [← bitSum_shr96_add v n]
  exact Nat.le_add_right _ _

/-- A left shift loses no count exactly when the n highest bits are 0. -/
theorem bitSum_shl96_eq_iff (v : Value) (n : Nat) :
    bitSum (shl96 v n) = bitSum v ↔ ∀ i < 96, 96 ≤ i + n → v.getLsbD i = false := by
  rw [bitSum_shl96, bitSum_eq_iff_of_bits (bits_of_shr96_shl96 v n)]
  refine forall₂_congr fun i _ => ?_
  rw [getLsbD_shr96_shl96]
  cases v.getLsbD i <;> simp

/-! ## The laws of the shifter -/

theorem toNat_pcnt_contentOf (v : Value) : (contentOf v).pcnt.toNat = bitSum v := by
  rw [pcnt_eq_bitSum_of_countExact (mk96_eq_contentOf v ▸ mk96_countExact v)]
  exact congrArg bitSum (contentOf_val v)

/-- Settles O41: the laws of the value's bits, and of the sum of those a shift keeps. -/
theorem shifterLawsHoldOfTheCommands : Obligations.ShifterLawsHoldOfTheCommands := by
  unfold Obligations.ShifterLawsHoldOfTheCommands
  intro s m n h0
  refine ⟨⟨_, _, _, exec_shl h0 m, exec_shl (by exact h0) n, exec_shl h0 (m + n), ?_⟩,
    ⟨_, _, _, exec_shr h0 m, exec_shr (by exact h0) n, exec_shr h0 (m + n), ?_⟩,
    ⟨_, _, exec_shr h0 n, exec_shl (by exact h0) n, fun i hi => ?_⟩,
    ⟨_, _, exec_shl h0 n, exec_shr (by exact h0) n, fun i hi => ?_⟩,
    fun hexact => ⟨_, _, exec_shl h0 n, exec_shr h0 n, ?_⟩⟩
  · simp only [contentOf_val, shl96_shl96]
  · simp only [contentOf_val, shr96_shr96]
  · simp only [contentOf_val, getLsbD_shl96_shr96 _ hi]
  · simp only [contentOf_val, getLsbD_shr96_shl96]
  · have hcount : s.x0.pcnt.toNat = bitSum s.x0.val := pcnt_eq_bitSum_of_countExact hexact
    rw [← BitVec.toNat_inj, ← BitVec.toNat_inj, hcount, toNat_pcnt_contentOf, toNat_pcnt_contentOf]
    exact ⟨bitSum_shl96_le _ n, bitSum_shr96_le _ n, bitSum_shl96_eq_iff _ n, bitSum_shr96_eq_iff _ n⟩

end Sys2Proof.Machine
end

section
/-! SUPPORT. The laws of the ordering (44_ordering.md R117) and of inclusion (45_inclusion.md R121). -/

namespace Sys2Proof.Machine

open Sys2Proof.Claim

variable {s : State} {a b : BitString}

/-! ## Ordering -/

/-- On loaded operands a predicate leaves its own answer. -/
theorem leavesFlag_of_writesFlag {i : Instr} {f : BitString → BitString → Bool} (hwrites : WritesFlag i f) (s : State)
    (a b : BitString) : LeavesFlag i (operands s a b) (f a b) :=
  (leavesFlag_iff_of_writesFlag hwrites).mpr rfl

theorem leavesFlag_le_iff : LeavesFlag .le (operands s a b) true ↔ a.pcnt.toNat ≤ b.pcnt.toNat :=
  (leavesFlag_iff_of_writesFlag writesFlag_le).trans decide_eq_true_iff

theorem leavesFlag_ge_iff : LeavesFlag .ge (operands s a b) true ↔ b.pcnt.toNat ≤ a.pcnt.toNat :=
  (leavesFlag_iff_of_writesFlag writesFlag_ge).trans decide_eq_true_iff

/-- Settles O52: each law is that of the counts as numbers, one of which is less, equal or greater. -/
theorem orderingLawsHoldOfTheCommands : Obligations.OrderingLawsHoldOfTheCommands := by
  unfold Obligations.OrderingLawsHoldOfTheCommands
  refine ⟨fun s a b => ⟨_, _, _, _, _, _, leavesFlag_of_writesFlag writesFlag_lt s a b,
    leavesFlag_of_writesFlag writesFlag_eq s a b, leavesFlag_of_writesFlag writesFlag_gt s a b,
    leavesFlag_of_writesFlag writesFlag_le s a b, leavesFlag_of_writesFlag writesFlag_ge s a b,
    leavesFlag_of_writesFlag writesFlag_ne s a b, ?_⟩, fun s a b c hab hbc => ?_⟩
  · simp only [← BitVec.toNat_inj, ne_eq]
    rcases lt_trichotomy a.pcnt.toNat b.pcnt.toNat with h | h | h
    · simp [h, h.le, h.ne, h.not_gt, h.not_ge]
    · simp [h]
    · simp [h, h.le, h.ne', h.not_gt, h.not_ge]
  · rw [leavesFlag_le_iff] at hab hbc ⊢
    exact hab.trans hbc

/-! ## Inclusion -/

/-- Two values are equal exactly when their words are (10_state.md R22). -/
theorem BitString.val_eq_val_iff : a.val = b.val ↔ a.head = b.head ∧ a.tail = b.tail := by
  constructor
  · intro h
    have hcontent : content a.head a.tail = content b.head b.tail := by
      rw [← contentOf_append, ← contentOf_append]
      exact congrArg contentOf h
    obtain ⟨hhead, htail, -⟩ := BitString.mk.inj hcontent
    exact ⟨hhead, htail⟩
  · rintro ⟨hhead, htail⟩
    rw [BitString.val, BitString.val, hhead, htail]

/-- Including a value is keeping it under AND (45_inclusion.md R120). -/
theorem leavesFlag_incl_iff_and : LeavesFlag .incl (operands s a b) true ↔ a.val &&& b.val = b.val := by
  have hand : a.val &&& b.val = (content (a.head &&& b.head) (a.tail &&& b.tail)).val := BitVec.and_append
  rw [leavesFlag_incl_iff, hand, BitString.val_eq_val_iff]
  rfl

/-- The bitwise reading of inclusion (45_inclusion.md R121). -/
theorem leavesFlag_incl_iff_bits :
    LeavesFlag .incl (operands s a b) true ↔ ∀ i < 96, b.val.getLsbD i = true → a.val.getLsbD i = true := by
  rw [leavesFlag_incl_iff_and, BitVec.eq_of_getLsbD_eq_iff]
  refine forall₂_congr fun i _ => ?_
  rw [BitVec.getLsbD_and]
  cases a.val.getLsbD i <;> cases b.val.getLsbD i <;> decide

/-- Inclusion by what is left of X[1] outside X[0]. -/
theorem leavesFlag_incl_iff_and_not : LeavesFlag .incl (operands s a b) true ↔ b.val &&& ~~~a.val = 0#96 := by
  rw [leavesFlag_incl_iff_bits, BitVec.eq_of_getLsbD_eq_iff]
  refine forall₂_congr fun i _ => ?_
  rw [getLsbD_and_not, BitVec.getLsbD_zero]
  cases a.val.getLsbD i <;> cases b.val.getLsbD i <;> decide

/-- Inclusion by what X[1] adds to X[0]. -/
theorem leavesFlag_incl_iff_or : LeavesFlag .incl (operands s a b) true ↔ a.val ||| b.val = a.val := by
  rw [leavesFlag_incl_iff_bits, BitVec.eq_of_getLsbD_eq_iff]
  refine forall₂_congr fun i _ => ?_
  rw [BitVec.getLsbD_or]
  cases a.val.getLsbD i <;> cases b.val.getLsbD i <;> decide

theorem and_and_self_left {n : Nat} (x y : BitVec n) : x &&& (x &&& y) = x &&& y := by
  rw [← BitVec.and_assoc, BitVec.and_self]

theorem or_and_self_left {n : Nat} (x y : BitVec n) : (x ||| y) &&& x = x := by
  refine BitVec.eq_of_getLsbD_eq fun i _ => ?_
  rw [BitVec.getLsbD_and, BitVec.getLsbD_or]
  cases x.getLsbD i <;> cases y.getLsbD i <;> rfl

/-- Settles O54: each law of inclusion is that of its bitwise reading. -/
theorem inclusionLawsHoldOfTheCommand : Obligations.InclusionLawsHoldOfTheCommand := by
  unfold Obligations.InclusionLawsHoldOfTheCommand
  refine ⟨fun s a b => ⟨leavesFlag_incl_iff_bits, leavesFlag_incl_iff_and_not, leavesFlag_incl_iff_or, fun hab hba => ?_,
    fun ha hb hab => ?_, leavesFlag_incl_iff.mpr ⟨and_and_self_left _ _, and_and_self_left _ _⟩,
    leavesFlag_incl_iff.mpr ⟨or_and_self_left _ _, or_and_self_left _ _⟩⟩, fun s a b c hab hbc => ?_⟩
  · rw [leavesFlag_incl_iff_and] at hab hba
    rw [← hba, BitVec.and_comm, hab]
  · rw [leavesFlag_incl_iff_bits] at hab
    rw [leavesFlag_ge_iff, pcnt_eq_bitSum_of_countExact ha, pcnt_eq_bitSum_of_countExact hb]
    exact bitSum_le_of_bits hab
  · rw [leavesFlag_incl_iff_bits] at hab hbc ⊢
    exact fun i hi h => hab i hi (hbc i hi h)

end Sys2Proof.Machine
end

section
/-! SUPPORT. A rendered value read back as a pattern (46_readout.md R126). -/

namespace Sys2Proof.Machine

open Sys2Proof.Claim

variable {s : State}

/-! ## The codes of a rendering -/

/-- The code of the character a bit is rendered as (log 14). -/
def codeOfBit (bit : Bool) : CharCode := if bit then 0x31#8 else 0x30#8

theorem isOneChar_codeOfBit (bit : Bool) : isOneChar (codeOfBit bit) = bit := by cases bit <;> decide

theorem charCode_of_bit (bit : Bool) : charCode (if bit then '1' else '0') = some (codeOfBit bit) := by
  cases bit <;> decide

/-- A text whose characters have codes has the text of those. -/
theorem textCodes_map {α : Type} {character : α → Char} {code : α → CharCode}
    (h : ∀ x, charCode (character x) = some (code x)) (xs : List α) :
    textCodes (xs.map character) = some (xs.map code) := by
  induction xs with
  | nil => rfl
  | cons x xs ih => simp [textCodes, h, ih]

/-- The bits of a value, the most significant first. -/
def bitsFromTop (v : Value) : List Bool := (List.range 96).map fun j => v.getLsbD (95 - j)

theorem length_bitsFromTop (v : Value) : (bitsFromTop v).length = 96 := by simp [bitsFromTop]

theorem textCodes_render (v : Value) : textCodes (render v) = some ((bitsFromTop v).map codeOfBit) := by
  have hrender : render v = (bitsFromTop v).map fun bit => if bit then '1' else '0' := by
    rw [render_eq_renderBits, renderBits, bitsFromTop, List.map_map]
    rfl
  rw [hrender, textCodes_map charCode_of_bit]

/-- The i-th bit from the right of the list is bit i. -/
theorem fromBitPattern_bitsFromTop (v : Value) : (fromBitPattern ((bitsFromTop v).map codeOfBit)).val = v := by
  refine BitVec.eq_of_getLsbD_eq fun i hi => ?_
  have hbit : (bitsFromTop v).reverse[i]? = some (v.getLsbD i) := by
    rw [List.getElem?_reverse (by simpa [length_bitsFromTop] using hi)]
    simp [bitsFromTop, show 95 - i < 96 by omega, show 95 - (95 - i) = i by omega]
  rw [getLsbD_fromBitPattern, ← List.map_reverse, List.getElem?_map, hbit]
  simp [hi, isOneChar_codeOfBit]

/-! ## Loading a rendering beside the value -/

/-- A pattern loaded into X[1] that has the value of X[0] makes BEQ true. -/
theorem runs_ldp_beq (h0 : s.v0 = true) {text : List CharCode} (hval : s.x0.val = (fromBitPattern text).val) :
    Runs s ((ldp .x1 text ++ [Instr.beq]).map encode) ((s.putLoaded .x1 (fromBitPattern text)).putFlag true) := by
  have hflag : flagBeq s.x0 (fromBitPattern text) = true := decide_eq_true (BitString.val_eq_val_iff.mp hval)
  rw [List.map_append, ← hflag]
  exact (runs_ldp s .x1 text).append (.of_command rfl (exec_of_both_loaded rfl h0 rfl))

/-- Settles O56: bit i is rendered 95 - i places from the left and read back i places from the right, and equal values have
equal words. -/
theorem renderedValueLoadsBackEqual : Obligations.RenderedValueLoadsBackEqual := by
  unfold Obligations.RenderedValueLoadsBackEqual
  refine ⟨fun v => ⟨_, textCodes_render v, fromBitPattern_bitsFromTop v⟩, fun s text rest h0 htext => ?_⟩
  rw [textCodes_render, Option.some.injEq] at htext
  subst htext
  have hlength : (ldp .x1 ((bitsFromTop s.x0.val).map codeOfBit) ++ [Instr.beq]).length = 98 := by
    simp [ldp, ldpcAll, length_bitsFromTop]
  have hrun := (runs_ldp_beq h0 (fromBitPattern_bitsFromTop s.x0.val).symm).core_run_issue rest
  rw [hlength] at hrun
  exact ⟨_, hrun, rfl, rfl, rfl, rfl⟩

end Sys2Proof.Machine
end

section
/-! SUPPORT. What the host reports after a test line (30_encoding.md R65, R67, 46_readout.md R127). -/

namespace Sys2Proof.Machine

open Sys2Proof.Claim

variable {s t : State} {i : Instr} {line : List Char} {operand1 operand2 token : List Char} {text1 text2 : List CharCode}

/-- The amount a host issues fits its field (30_encoding.md R68). -/
theorem shiftAmountFits_saturateShift (n : Nat) : shiftAmountFits (saturateShift n) = true :=
  decide_eq_true (lt_of_le_of_lt (Nat.min_le_right n 4294967295) (by decide))

/-! ## From a run to a report -/

/-- A run that ends in a state with a result line is reported with it. -/
theorem Runs.report {ws : List CmdWord} (h : Runs s ws t) (hline : t.reportLine = some line) : RunsAndReports s ws line :=
  fun rest => ⟨_, h.core_run rest, congrArg (Option.map (· ++ ['\n', '\n'])) hline, rfl⟩

/-- A command after the load of X[0]. -/
theorem runsAndReports_unary (hwf : i.wf = true) (hexec : exec i (s.putLoaded .x0 (fromBitPattern text1)) = .next t)
    (hline : t.reportLine = some line) : RunsAndReports s ((ldp .x0 text1 ++ [i]).map encode) line := by
  rw [List.map_append]
  exact ((runs_ldp s .x0 text1).append (.of_command hwf hexec)).report hline

/-- A command after the loads of X[0] and X[1]. -/
theorem runsAndReports_binary (hwf : i.wf = true)
    (hexec : exec i (operands { s with rkind := .loaded } (fromBitPattern text1) (fromBitPattern text2)) = .next t)
    (hline : t.reportLine = some line) :
    RunsAndReports s ((ldp .x0 text1 ++ ldp .x1 text2 ++ [i]).map encode) line := by
  rw [List.map_append, List.map_append]
  exact (((runs_ldp s .x0 text1).append (runs_ldp _ .x1 text2)).append (.of_command hwf hexec)).report hline

/-! ## The result lines (46_readout.md R127) -/

/-- A value in X[0] is reported by its rendering. -/
theorem reportLine_bits {v : Value} (hk : t.rkind = .bits) (h0 : t.v0 = true) (hv : t.x0.val = v) :
    t.reportLine = some (render v) := by
  simp [State.reportLine, hk, State.readX, h0, hv]

/-- A FLAG that decides a proposition is reported as its literal. -/
theorem reportLine_flag {p : Prop} [Decidable p] (hk : t.rkind = .bool) (hflag : t.flag = decide p) :
    t.reportLine = some (boolLine p) := by
  simp [State.reportLine, hk, hflag, boolLine]

theorem reportLine_count (hk : t.rkind = .count) : t.reportLine = some (Nat.toDigits 10 t.cnt.toNat) := by
  simp [State.reportLine, hk, decimalOf]

/-! ## The binary operators -/

/-- On loaded operands with exact counts a command's result is reported by a line that depends on the values only. -/
def Answers (i : Instr) (line : Value → Value → List Char) : Prop :=
  ∀ (s : State) (a b : BitString), a.countExact → b.countExact →
    ∃ t, exec i (operands s a b) = .next t ∧ t.reportLine = some (line a.val b.val)

theorem answers_of_writesBits {head : Head → Head → Head} {tail : Tail → Tail → Tail} {op : Value → Value → Value}
    (hwrites : WritesBits i head tail)
    (hop : ∀ a b : BitString, (head a.head b.head ++ tail a.tail b.tail : Value) = op a.val b.val) :
    Answers i fun a b => render (op a b) :=
  fun s a b _ _ => ⟨_, hwrites (operands s a b) rfl rfl, reportLine_bits rfl rfl (hop a b)⟩

/-- A comparison of exact counts is that of the sums of the values' bits. -/
theorem answers_of_counts {c : Nat → Nat → Prop} [∀ m n, Decidable (c m n)]
    (hwrites : WritesFlag i fun a b => decide (c a.pcnt.toNat b.pcnt.toNat)) :
    Answers i fun a b => boolLine (c (bitSum a) (bitSum b)) := by
  intro s a b ha hb
  have ha' : a.pcnt.toNat = bitSum a.val := pcnt_eq_bitSum_of_countExact ha
  have hb' : b.pcnt.toNat = bitSum b.val := pcnt_eq_bitSum_of_countExact hb
  simp only [← ha', ← hb']
  exact ⟨_, hwrites (operands s a b) rfl rfl, reportLine_flag rfl rfl⟩

theorem answers_incl : Answers .incl fun a b => boolLine (a &&& b = b) := fun s a b _ _ =>
  ⟨_, writesFlag_incl (operands s a b) rfl rfl, reportLine_flag rfl
    (decide_eq_decide.mpr (leavesFlag_incl_iff.symm.trans (leavesFlag_incl_iff_and (s := s))))⟩

theorem Answers.of_eq {line line' : Value → Value → List Char} (h : Answers i line) (heq : ∀ a b, line' a b = line a b) :
    Answers i line' := by
  rwa [funext₂ heq]

/-- Each token of an operator whose second operand is a pattern selects the command that answers its line (30_encoding.md
R65). -/
theorem binaryToken_answers : ∀ token ∈ binaryTokens,
    ∃ i, operatorOf token = .binary i ∧ i.wf = true ∧ Answers i (binaryLine token) := by
  simp only [binaryTokens, List.forall_mem_cons]
  refine ⟨⟨.and, by decide, rfl, .of_eq (answers_of_writesBits writesBits_and fun _ _ => BitVec.and_append.symm) ?_⟩,
    ⟨.or, by decide, rfl, .of_eq (answers_of_writesBits writesBits_or fun _ _ => BitVec.or_append.symm) ?_⟩,
    ⟨.xor, by decide, rfl, .of_eq (answers_of_writesBits writesBits_xor fun _ _ => BitVec.xor_append.symm) ?_⟩,
    ⟨.lt, by decide, rfl, .of_eq (answers_of_counts (c := (· < ·)) (writesFlag_of_effectOf rfl fun _ => rfl)) ?_⟩,
    ⟨.gt, by decide, rfl, .of_eq (answers_of_counts (c := (· > ·)) (writesFlag_of_effectOf rfl fun _ => rfl)) ?_⟩,
    ⟨.le, by decide, rfl, .of_eq (answers_of_counts (c := (· ≤ ·)) (writesFlag_of_effectOf rfl fun _ => rfl)) ?_⟩,
    ⟨.ge, by decide, rfl, .of_eq (answers_of_counts (c := (· ≥ ·)) (writesFlag_of_effectOf rfl fun _ => rfl)) ?_⟩,
    ⟨.eq, by decide, rfl, .of_eq (answers_of_counts (c := (· = ·)) (writesFlag_of_effectOf rfl fun _ => rfl)) ?_⟩,
    ⟨.ne, by decide, rfl, .of_eq (answers_of_counts (c := (· ≠ ·)) (writesFlag_of_effectOf rfl fun _ => rfl)) ?_⟩,
    ⟨.incl, by decide, rfl, .of_eq answers_incl ?_⟩, List.forall_mem_nil _⟩ <;>
  · intro a b
    simp [binaryLine]

theorem testLine_binary (h1 : textCodes operand1 = some text1) (h2 : textCodes operand2 = some text2)
    (hop : operatorOf token = .binary i) :
    testLine operand1 token (some operand2) = some ((ldp .x0 text1 ++ ldp .x1 text2 ++ [i]).map encode) := by
  simp only [testLine, h1, hop, Option.bind_some, h2]

theorem testLine_binary_reports (h1 : textCodes operand1 = some text1) (h2 : textCodes operand2 = some text2)
    (htoken : token ∈ binaryTokens) :
    ∃ ws, testLine operand1 token (some operand2) = some ws
      ∧ RunsAndReports s ws (binaryLine token (fromBitPattern text1).val (fromBitPattern text2).val) := by
  obtain ⟨i, hop, hwf, hanswers⟩ := binaryToken_answers token htoken
  obtain ⟨t, hexec, hline⟩ := hanswers _ _ _ (fromBitPattern_countExact text1) (fromBitPattern_countExact text2)
  exact ⟨_, testLine_binary h1 h2 hop, runsAndReports_binary hwf hexec hline⟩

/-! ## The shifts, with saturated amounts (30_encoding.md R68) -/

theorem testLine_shl {n : Nat} (h1 : textCodes operand1 = some text1) (h2 : decimalNumber operand2 = some n) :
    testLine operand1 "<<".toList (some operand2) =
      some ((ldp .x0 text1 ++ [Instr.shl (saturateShift n)]).map encode) := by
  have hop : operatorOf "<<".toList = .shiftLeft := by decide
  simp only [testLine, h1, hop, Option.bind_some, h2]

theorem testLine_shr {n : Nat} (h1 : textCodes operand1 = some text1) (h2 : decimalNumber operand2 = some n) :
    testLine operand1 ">>".toList (some operand2) =
      some ((ldp .x0 text1 ++ [Instr.shr (saturateShift n)]).map encode) := by
  have hop : operatorOf ">>".toList = .shiftRight := by decide
  simp only [testLine, h1, hop, Option.bind_some, h2]

theorem testLine_shl_reports {n : Nat} (h1 : textCodes operand1 = some text1) (h2 : decimalNumber operand2 = some n) :
    ∃ ws, testLine operand1 "<<".toList (some operand2) = some ws
      ∧ RunsAndReports s ws (render (shl96 (fromBitPattern text1).val n)) := by
  refine ⟨_, testLine_shl h1 h2,
    runsAndReports_unary (shiftAmountFits_saturateShift n) (exec_shl rfl _) (reportLine_bits rfl rfl ?_)⟩
  rw [contentOf_val, shl96_saturateShift]
  rfl

theorem testLine_shr_reports {n : Nat} (h1 : textCodes operand1 = some text1) (h2 : decimalNumber operand2 = some n) :
    ∃ ws, testLine operand1 ">>".toList (some operand2) = some ws
      ∧ RunsAndReports s ws (render (shr96 (fromBitPattern text1).val n)) := by
  refine ⟨_, testLine_shr h1 h2,
    runsAndReports_unary (shiftAmountFits_saturateShift n) (exec_shr rfl _) (reportLine_bits rfl rfl ?_)⟩
  rw [contentOf_val, shr96_saturateShift]
  rfl

/-! ## The unary operators, and any other token -/

theorem testLine_unary {second : Option (List Char)} (h1 : textCodes operand1 = some text1)
    (hop : operatorOf token = .unary i) :
    testLine operand1 token second = some ((ldp .x0 text1 ++ [i]).map encode) := by
  simp only [testLine, h1, hop]

theorem testLine_not_reports (h1 : textCodes operand1 = some text1) (second : Option (List Char)) :
    ∃ ws, testLine operand1 "~".toList second = some ws
      ∧ RunsAndReports s ws (render (~~~(fromBitPattern text1).val)) :=
  ⟨_, testLine_unary h1 (by decide : operatorOf "~".toList = .unary .not),
    runsAndReports_unary rfl (exec_not rfl) (reportLine_bits rfl rfl BitVec.not_append.symm)⟩

theorem testLine_popcnt_reports (h1 : textCodes operand1 = some text1) (second : Option (List Char)) :
    ∃ ws, testLine operand1 "set_bits".toList second = some ws
      ∧ RunsAndReports s ws (Nat.toDigits 10 (bitSum (fromBitPattern text1).val)) := by
  have hcount : (fromBitPattern text1).pcnt.toNat = bitSum (fromBitPattern text1).val :=
    pcnt_eq_bitSum_of_countExact (fromBitPattern_countExact text1)
  rw [← hcount]
  exact ⟨_, testLine_unary h1 (by decide : operatorOf "set_bits".toList = .unary .popcnt),
    runsAndReports_unary rfl (exec_popcnt rfl) (reportLine_count rfl)⟩

/-- A token outside the closed set selects no operator (30_encoding.md R65). -/
theorem operatorOf_unknown (h : token ∉ knownTokens) : operatorOf token = .unknown := by
  simp only [knownTokens, binaryTokens, List.cons_append, List.nil_append, List.mem_cons, List.not_mem_nil, or_false,
    not_or] at h
  simp only [operatorOf, h, if_false]

theorem decode_badInputWord : decode badInputWord = .bad .reservedOpcode := by decide

theorem testLine_unknown (h1 : textCodes operand1 = some text1) (second : Option (List Char)) (h : token ∉ knownTokens) :
    testLine operand1 token second = some ((ldp .x0 text1).map encode ++ [badInputWord]) := by
  simp only [testLine, h1, operatorOf_unknown h]

theorem testLine_unknown_reports (h1 : textCodes operand1 = some text1) (second : Option (List Char))
    (h : token ∉ knownTokens) :
    ∃ ws, testLine operand1 token second = some ws ∧ RunsAndReports s ws "Bad input!".toList :=
  ⟨_, testLine_unknown h1 second h,
    ((runs_ldp s .x0 text1).append (.cons (runWord_of_bad decode_badInputWord _) (.nil _))).report rfl⟩

/-- Settles O57: the pattern loads leave the two patterns loaded with exact counts, and the last word leaves what its line
reports. -/
theorem testLineReportsTheOperatorsResult : Obligations.TestLineReportsTheOperatorsResult := by
  unfold Obligations.TestLineReportsTheOperatorsResult
  exact fun s operand1 operand2 text1 text2 h1 h2 =>
    ⟨fun token htoken => testLine_binary_reports h1 h2 htoken,
      fun n hn => ⟨testLine_shl_reports h1 hn, testLine_shr_reports h1 hn⟩,
      fun second => ⟨testLine_not_reports h1 second, testLine_popcnt_reports h1 second,
        fun token htoken => testLine_unknown_reports h1 second htoken⟩⟩

end Sys2Proof.Machine
end
